-- ==== Sys2Proof/Word.lean ====
section
/-! DEFINITION. The word types of the machine (spec 00_scope.md R6, R7): what the spec treats as bits is a
bit vector, what it treats as an index or a count is a bounded number. -/

namespace Sys2Proof

/-- An 8-bit value: a general register, a timer, a byte of memory (R20, R30, R40). -/
abbrev Byte := BitVec 8

/-- A 16-bit value: an instruction word, `pc`, `I`, a stack entry (R26, R29, R36, R70). -/
abbrev Word := BitVec 16

/-- The 12-bit address field `nnn` of an instruction (R72). -/
abbrev Addr12 := BitVec 12

/-- A 4-bit key code 0..15; software sees it zero-extended to a byte (R33, R132). -/
abbrev KeyCode := BitVec 4

/-- The number of a general register, V0..VF (R20, R21): always in range. -/
abbrev RegIdx := Fin 16

/-- The row count `n` of the draw instruction, 0..15 (R72, R74: a natural number). -/
abbrev RowCount := Fin 16

/-- The 2048 one-bit pixels of the framebuffer (R38): bit `y*64 + x` is the pixel in column x, row y. -/
abbrev Framebuffer := BitVec 2048

end Sys2Proof
end

