-- ==== Sys2Proof/Syntax.lean ====
section
/-! DEFINITION. The instructions as syntax: one constructor per row of spec/opcode_table.json (30_encoding.md
R71, R76). The last row, UNKNOWN, is the decode result of every other word and keeps the whole word. -/

namespace Sys2Proof

/-- The 17 decode results of R71: the 16 instructions of R76 in the table's order, and `Unknown(w)`. -/
inductive Instr where
  /-- `00EE`, return from subroutine. -/
  | ret
  /-- `1nnn`, jump absolute. -/
  | jp (nnn : Addr12)
  /-- `2nnn`, call subroutine. -/
  | call (nnn : Addr12)
  /-- `3xkk`, skip if register equals immediate. -/
  | se (x : RegIdx) (kk : Byte)
  /-- `4xkk`, skip if register does not equal immediate. -/
  | sne (x : RegIdx) (kk : Byte)
  /-- `6xkk`, load immediate into register. -/
  | ldVxKk (x : RegIdx) (kk : Byte)
  /-- `7xkk`, add immediate to register. -/
  | addVxKk (x : RegIdx) (kk : Byte)
  /-- `8xy0`, copy register y to register x. -/
  | ldVxVy (x y : RegIdx)
  /-- `Annn`, load the address register. -/
  | ldINnn (nnn : Addr12)
  /-- `Dxyn`, draw a sprite of n rows. -/
  | drw (x y : RegIdx) (n : RowCount)
  /-- `ExA1`, skip if key not pressed. -/
  | sknp (x : RegIdx)
  /-- `Fx07`, read the delay timer. -/
  | ldVxDt (x : RegIdx)
  /-- `Fx0A`, wait for a key. -/
  | ldVxK (x : RegIdx)
  /-- `Fx15`, write the delay timer. -/
  | ldDtVx (x : RegIdx)
  /-- `Fx1E`, add a register to the address register. -/
  | addIVx (x : RegIdx)
  /-- `Fx65`, load registers V0..Vx from memory. -/
  | ldVxMemi (x : RegIdx)
  /-- Any other word (R78, R150). -/
  | unknown (w : Word)
  deriving DecidableEq, Repr

end Sys2Proof
end

