-- ==== Sys2Proof/WellFormed.lean ====
section
/-! DEFINITION. When a term of `Instr` stands for a word (30_encoding.md R76, R78, R79). Every operand's range
is carried by its type and every operand value is accepted (R79); the one thing left to check is that an
`unknown` term holds a word that is none of the 16 instructions. -/

namespace Sys2Proof

/-- One row of the opcode table: a word `w` is the row's instruction exactly when
`w AND mask = pattern` (R76). -/
structure OpcodeRow where
  mask : Word
  pattern : Word
  deriving DecidableEq, Repr

/-- Does the word belong to the row? -/
def OpcodeRow.covers (r : OpcodeRow) (w : Word) : Bool := w &&& r.mask == r.pattern

/-- The 16 rows of R76, in the table's order. -/
def opcodeRows : List OpcodeRow := [
  ⟨0xFFFF#16, 0x00EE#16⟩, ⟨0xF000#16, 0x1000#16⟩, ⟨0xF000#16, 0x2000#16⟩, ⟨0xF000#16, 0x3000#16⟩,
  ⟨0xF000#16, 0x4000#16⟩, ⟨0xF000#16, 0x6000#16⟩, ⟨0xF000#16, 0x7000#16⟩, ⟨0xF00F#16, 0x8000#16⟩,
  ⟨0xF000#16, 0xA000#16⟩, ⟨0xF000#16, 0xD000#16⟩, ⟨0xF0FF#16, 0xE0A1#16⟩, ⟨0xF0FF#16, 0xF007#16⟩,
  ⟨0xF0FF#16, 0xF00A#16⟩, ⟨0xF0FF#16, 0xF015#16⟩, ⟨0xF0FF#16, 0xF01E#16⟩, ⟨0xF0FF#16, 0xF065#16⟩]

/-- Is the word one of the 16 instructions (R76)? -/
def isInstructionWord (w : Word) : Bool := opcodeRows.any (·.covers w)

/-- Well-formed terms: an `unknown` term holds a word that matches no row (R78). -/
def Instr.wf : Instr → Bool
  | .ret => true
  | .jp _ => true
  | .call _ => true
  | .se _ _ => true
  | .sne _ _ => true
  | .ldVxKk _ _ => true
  | .addVxKk _ _ => true
  | .ldVxVy _ _ => true
  | .ldINnn _ => true
  | .drw _ _ _ => true
  | .sknp _ => true
  | .ldVxDt _ => true
  | .ldVxK _ => true
  | .ldDtVx _ => true
  | .addIVx _ => true
  | .ldVxMemi _ => true
  | .unknown w => !isInstructionWord w

end Sys2Proof
end

