-- ==== Sys2Proof/Decode.lean ====
section
/-! DEFINITION. The decoder, total on any bytes, and after it the encoder (30_encoding.md R70 to R81;
20_memory.md R55 for the byte order). -/

namespace Sys2Proof

/-! ## Fields of a word (R72): unsigned slices, nothing signed, scaled or shifted -/

/-- The opcode family `w[15:12]`, as a number. -/
def fieldF (w : Word) : Nat := (w.extractLsb' 12 4).toNat

/-- `x = w[11:8]`, a register index. -/
def fieldX (w : Word) : RegIdx := (w.extractLsb' 8 4).toFin

/-- `y = w[7:4]`, a register index. -/
def fieldY (w : Word) : RegIdx := (w.extractLsb' 4 4).toFin

/-- `n = w[3:0]`: the row count of `Dxyn`, and the function code of family 8. -/
def fieldN (w : Word) : RowCount := (w.extractLsb' 0 4).toFin

/-- `kk = w[7:0]`: an immediate byte, and the function code of families E and F. -/
def fieldKk (w : Word) : Byte := w.extractLsb' 0 8

/-- `nnn = w[11:0]`: a byte address. -/
def fieldNnn (w : Word) : Addr12 := w.extractLsb' 0 12

/-! ## The decode function (R75) -/

/-- Family 0: one word only. -/
def decodeFamily0 (w : Word) : Instr :=
  if w = 0x00EE#16 then .ret else .unknown w

/-- Family 8: the copy, when the low nibble is 0. -/
def decodeFamily8 (w : Word) : Instr :=
  if fieldN w = 0 then .ldVxVy (fieldX w) (fieldY w) else .unknown w

/-- Family E: one function byte. -/
def decodeFamilyE (w : Word) : Instr :=
  if fieldKk w = 0xA1#8 then .sknp (fieldX w) else .unknown w

/-- Family F: five function bytes. -/
def decodeFamilyF (w : Word) : Instr :=
  if fieldKk w = 0x07#8 then .ldVxDt (fieldX w)
  else if fieldKk w = 0x0A#8 then .ldVxK (fieldX w)
  else if fieldKk w = 0x15#8 then .ldDtVx (fieldX w)
  else if fieldKk w = 0x1E#8 then .addIVx (fieldX w)
  else if fieldKk w = 0x65#8 then .ldVxMemi (fieldX w)
  else .unknown w

/-- `decode(word: uint16) -> Instruction`, the complete decode function of R75: pure, total, never failing
(R71). Families 5, 9, B and C hold no instruction; the last line is for them, since a family is at most 15. -/
def decode (w : Word) : Instr :=
  match fieldF w with
  | 0x0 => decodeFamily0 w
  | 0x1 => .jp (fieldNnn w)
  | 0x2 => .call (fieldNnn w)
  | 0x3 => .se (fieldX w) (fieldKk w)
  | 0x4 => .sne (fieldX w) (fieldKk w)
  | 0x6 => .ldVxKk (fieldX w) (fieldKk w)
  | 0x7 => .addVxKk (fieldX w) (fieldKk w)
  | 0x8 => decodeFamily8 w
  | 0xA => .ldINnn (fieldNnn w)
  | 0xD => .drw (fieldX w) (fieldY w) (fieldN w)
  | 0xE => decodeFamilyE w
  | 0xF => decodeFamilyF w
  | _ => .unknown w

/-- Why a sequence of bytes holds no instruction word. -/
inductive DecodeError where
  /-- Fewer than the two bytes of a word (R70). -/
  | truncated
  deriving DecidableEq, Repr

/-- The word two bytes make, the byte at the lower address in bits 15:8 (R55; the spec's decision D1). -/
def wordOfBytes (hi lo : Byte) : Word := hi ++ lo

/-- Decode the first word of a sequence of bytes, lowest address first, and give the bytes after it. -/
def decodeBytes : List Byte → Except DecodeError (Instr × List Byte)
  | hi :: lo :: rest => .ok (decode (wordOfBytes hi lo), rest)
  | _ => .error .truncated

/-! ## The encoder (R81: the inverse of R72, by format) -/

/-- A register index or a row count as its 4-bit field. -/
def nibble (x : Fin 16) : BitVec 4 := BitVec.ofFin x

/-- Format A: `f ++ nnn` (R73). -/
def formatA (f : BitVec 4) (nnn : Addr12) : Word := f ++ nnn

/-- Formats RI and RF: `f ++ x ++ kk`, the last an immediate or a function byte (R73). -/
def formatRI (f : BitVec 4) (x : RegIdx) (kk : Byte) : Word := f ++ nibble x ++ kk

/-- Formats RR and RRN: `f ++ x ++ y ++ n` (R73). -/
def formatRRN (f : BitVec 4) (x y : RegIdx) (n : RowCount) : Word := f ++ nibble x ++ nibble y ++ nibble n

/-- The word of an instruction (R76, R81). An `unknown` term is its own word. -/
def encode : Instr → Word
  | .ret => 0x00EE#16
  | .jp nnn => formatA 0x1#4 nnn
  | .call nnn => formatA 0x2#4 nnn
  | .se x kk => formatRI 0x3#4 x kk
  | .sne x kk => formatRI 0x4#4 x kk
  | .ldVxKk x kk => formatRI 0x6#4 x kk
  | .addVxKk x kk => formatRI 0x7#4 x kk
  | .ldVxVy x y => formatRRN 0x8#4 x y 0
  | .ldINnn nnn => formatA 0xA#4 nnn
  | .drw x y n => formatRRN 0xD#4 x y n
  | .sknp x => formatRI 0xE#4 x 0xA1#8
  | .ldVxDt x => formatRI 0xF#4 x 0x07#8
  | .ldVxK x => formatRI 0xF#4 x 0x0A#8
  | .ldDtVx x => formatRI 0xF#4 x 0x15#8
  | .addIVx x => formatRI 0xF#4 x 0x1E#8
  | .ldVxMemi x => formatRI 0xF#4 x 0x65#8
  | .unknown w => w

/-- The two bytes a word is stored as, high byte at the lower address (R55, R81). -/
def bytesOfWord (w : Word) : List Byte := [w.extractLsb' 8 8, w.extractLsb' 0 8]

/-- The bytes of an instruction, lowest address first. -/
def encodeBytes (i : Instr) : List Byte := bytesOfWord (encode i)

/-- The word that the host's opcode-table number stands for: its low `nbits` bits, every bit above zero. -/
def tableWord (nbits w : Nat) : Word := BitVec.ofNat 16 (w % 2 ^ nbits)

/-- What the decoder reads from an instruction numbered as the opcode table numbers it (one 16-bit word, laid
out high byte first as the hardware stores it). -/
def decodeTableWord (nbits w : Nat) : Option Instr :=
  match decodeBytes (bytesOfWord (tableWord nbits w)) with
  | .ok (i, _) => some i
  | .error _ => none

end Sys2Proof
end

