-- ==== Sys2Proof/Config.lean ====
section
/-! DEFINITION. What an implementation fixes (spec 00_scope.md R6 and its parameter table) and the values
the spec leaves open: the key stream and the tick schedule (parameters KEY_STREAM and TICK_SCHEDULE). -/

namespace Sys2Proof

/-- The Input Source's answer for one cycle (R181): no key, a key code 0..15, or the quit input. -/
inductive KeySample where
  | noKey
  | key (c : KeyCode)
  | quit
  deriving DecidableEq, Repr, Inhabited

/-- One input of the machine, which selects one of its two atomic steps (R9): a timer tick, or an
instruction cycle with the key sample taken at its start. -/
inductive Input where
  | tick
  | cycle (k : KeySample)
  deriving DecidableEq, Repr, Inhabited

namespace Config

/-- MEM_SIZE (R6): addresses are 0 .. memSize - 1. -/
abbrev memSize : Nat := 4096

/-- ORIGIN (R6): the load address and the reset value of `pc`. -/
abbrev origin : Nat := 0x200

/-- MAX_IMAGE (R6, R192): the longest image the Loader accepts. -/
abbrev maxImage : Nat := 3584

/-- STACK_DEPTH (R6, R36). -/
abbrev stackDepth : Nat := 15

/-- SCREEN_WIDTH (R6, R38). -/
abbrev screenWidth : Nat := 64

/-- SCREEN_HEIGHT (R6, R38). -/
abbrev screenHeight : Nat := 32

/-- FREE VALUE (log entry 1). The inputs that come from the outside world once the inputs a state lists
are used up: the spec leaves both open (R176: "the schedule is the open parameter TICK_SCHEDULE"; R181: "The
answer is an unconstrained input of the step"). It has no body, so no proof can learn which step comes next
or which key is pressed, nor that ticks keep coming (fairness is a hypothesis of the claim that needs it). -/
opaque freeInput : Nat → Input

end Config

end Sys2Proof
end

