-- ==== Sys2Proof/Machine/State.lean ====
section
/-! DEFINITION. The machine's state as plain data (10_state.md, all of it), the reasons a step can stop, and the
state after reset (R45). -/

namespace Sys2Proof.Machine

/-- The run state (R34): the machine has exactly these two. -/
inductive RunState where
  | running
  | halted
  deriving DecidableEq, Repr

/-- Why the machine halted (R35, R160). The spec lets a model use names for its numeric codes (D20);
`HaltCause.code` in Machine/Ops.lean gives the numbers. -/
inductive HaltCause where
  /-- Still Running. -/
  | none
  /-- The quit input (R166). -/
  | quit
  /-- An Unknown word was executed (R161). -/
  | unknownOpcode
  /-- A call with 15 entries on the stack (R162). -/
  | stackOverflow
  /-- A return with an empty stack (R163). -/
  | stackUnderflow
  /-- A memory read past 0xFFF (R164). -/
  | outOfBoundsAccess
  /-- A fetch at an odd address (R165). -/
  | misalignedFetch
  deriving DecidableEq, Repr

/-- One tuple of the display event output (R126, R180). -/
structure PixelEvent where
  x : Fin 64
  y : Fin 32
  lit : Bool
  deriving DecidableEq, Repr

/-- Memory: the bytes that differ from what an unlisted address reads as, by strictly rising address
(R40; the form is `Memory.wf` in Machine/Ops.lean). -/
abbrev Memory := List Host.Cell

/-- The whole state: the items of 10_state.md section 1 under the spec's names, and three fields of the
model's own (`display`, `pending`, `drawn`) that hold the machine's output and its inputs. -/
@[ext]
structure State where
  /-- General registers V0..VF (R20). -/
  V : Vector Byte 16
  /-- Address register (R29). -/
  I : Word
  /-- Delay timer (R30). -/
  DT : Byte
  /-- Sound timer (R31). -/
  ST : Byte
  /-- The 15 stack slots; slots `0 .. sp - 1` are live (R36). -/
  stack : Vector Word 15
  /-- Number of live stack entries, 0..15 (R32). -/
  sp : Fin 16
  /-- Program counter (R26). -/
  pc : Word
  /-- Framebuffer (R38). -/
  fb : Framebuffer
  /-- Key latch, the last key code observed (R33). -/
  keyCode : KeyCode
  /-- Key latch, whether this cycle's sample was a key (R33). -/
  keyPressed : Bool
  /-- Memory (R40). -/
  mem : Memory
  /-- Run state (R34). -/
  run : RunState
  /-- Halt record: the cause (R35). -/
  haltCause : HaltCause
  /-- Halt record: the word being executed (R35). -/
  haltOpcode : Word
  /-- MODEL'S OWN: the display event output so far, oldest first (R126, R180). Nothing reads it. -/
  display : List PixelEvent
  /-- MODEL'S OWN: inputs the outside world has already chosen, next one first (R9, R178). -/
  pending : List Input
  /-- MODEL'S OWN: how many inputs were drawn from `Config.freeInput`. -/
  drawn : Nat
  deriving DecidableEq, Repr

/-- Why a step cannot be taken. The spec's five faults are no outcome of this type: each is a next state
that is Halted with its cause recorded (R170). -/
inductive Fault where
  /-- Raised by `step` alone, in a Halted state: "In Halted no step is enabled: no cycle, no tick, no key
  refresh; the state is frozen" (R171). Safe: the machine takes no step there either. -/
  | haltedNoStep
  deriving DecidableEq, Repr

/-- Why an instruction is given no meaning. -/
inductive Refusal where
  /-- An instruction whose meaning is not written yet. Raised by no arm of `exec`: every instruction has its
  meaning. Safe. -/
  | notModelled (mnemonic : String)
  deriving DecidableEq, Repr

/-- The machine right after reset (R45, R190), memory with nothing listed (MEM_INIT is open in the spec;
`State.resetWith` in Machine/HostInterface.lean takes any contents, log entry 2). No input is pending and no
output has been made (log entry 1). -/
def State.reset : State where
  V := Vector.replicate 16 0x00#8
  I := 0x0000#16
  DT := 0x00#8
  ST := 0x00#8
  stack := Vector.replicate 15 0x0000#16
  sp := 0
  pc := 0x0200#16
  fb := 0#2048
  keyCode := 0#4
  keyPressed := false
  mem := []
  run := .running
  haltCause := .none
  haltOpcode := 0x0000#16
  display := []
  pending := []
  drawn := 0

end Sys2Proof.Machine
end

