-- ==== Sys2Proof/Machine/Ops.lean ====
section
/-! DEFINITION. The named operations over memory, registers, the stack, the timers, the key latch and the
inputs; and taking a fault, which on this machine is halting (R170). -/

namespace Sys2Proof.Machine

/-! ## Memory (20_memory.md) -/

/-- What an address that no entry lists reads as (log entry 2: a DESIGN CHOICE, the spec's MEM_INIT is open). -/
def Memory.unlistedByte : Byte := 0x00#8

/-- The canonical form from address `lo` on: addresses strictly rising and below 4096, no entry equal to what an
unlisted address reads as. -/
def Memory.wfFrom (lo : Nat) : Memory → Bool
  | [] => true
  | (a, b) :: m =>
    decide (lo ≤ a) && decide (a < Config.memSize) && decide (b ≠ Memory.unlistedByte) && Memory.wfFrom (a + 1) m

/-- The canonical form of memory. -/
def Memory.wf (m : Memory) : Bool := Memory.wfFrom 0 m

/-- The byte at an address (R51: reading has no side effect). -/
def Memory.read : Memory → Nat → Byte
  | [], _ => Memory.unlistedByte
  | (a, b) :: m, x => if a = x then b else Memory.read m x

/-- Put one entry in front, unless it says what an unlisted address reads as anyway. -/
def Memory.consCell (a : Nat) (b : Byte) (m : Memory) : Memory :=
  if b = Memory.unlistedByte then m else (a, b) :: m

/-- Write one byte, keeping the canonical form. Only the Loader writes memory (R57). -/
def Memory.write : Memory → Nat → Byte → Memory
  | [], x, v => Memory.consCell x v []
  | (a, b) :: m, x, v =>
    if x < a then Memory.consCell x v ((a, b) :: m)
    else if x = a then Memory.consCell x v m
    else (a, b) :: Memory.write m x v

/-- Write bytes one after another, the first at `addr`. -/
def Memory.writeFrom (m : Memory) (addr : Nat) : List Byte → Memory
  | [] => m
  | b :: bs => Memory.writeFrom (m.write addr b) (addr + 1) bs

/-- Is every one of `n` bytes from `addr` in memory? An empty range always is (R52). The address is compared as a
natural number, never reduced (R50). -/
def inBounds (addr n : Nat) : Bool := decide (n = 0) || decide (addr + n ≤ Config.memSize)

/-- The bytes `addr .. addr + n - 1`, lowest address first (R51). -/
def Memory.bytesAt (m : Memory) (addr n : Nat) : List Byte :=
  (List.range n).map fun i => m.read (addr + i)

/-- `MemRead(addr, n)` (R51, R52): no answer when the range leaves memory; the whole range is checked before
any byte is used. -/
def memRead (s : State) (addr n : Nat) : Option (List Byte) :=
  if inBounds addr n then some (s.mem.bytesAt addr n) else none

/-- `MemWrite(addr, n, v)` (R57), for the Loader: refused when the range leaves memory. -/
def memWrite (s : State) (addr : Nat) (v : List Byte) : Option State :=
  if inBounds addr v.length then some { s with mem := s.mem.writeFrom addr v } else none

/-! ## General registers (R20): sixteen alike, none hardwired -/

/-- `V[x]`. -/
def State.reg (s : State) (x : RegIdx) : Byte := s.V.get x

/-- `V[x] <- v`. -/
def State.setReg (s : State) (x : RegIdx) (v : Byte) : State := { s with V := s.V.set x.val v }

/-- `V[i] <- bytes[0]`, `V[i+1] <- bytes[1]`, ... for the bytes given; there is no register above VF. -/
def State.setRegsFrom (s : State) (i : Nat) : List Byte → State
  | [] => s
  | b :: bs => (if h : i < 16 then s.setReg ⟨i, h⟩ b else s).setRegsFrom (i + 1) bs

/-! ## Program counter (R26, R27) -/

/-- `pc <- pc + k`. The sum never passes 16 bits after a fetch (R28); log entry 3 says what happens in states
no run reaches. -/
def State.advance (s : State) (k : Word) : State := { s with pc := s.pc + k }

/-- The end of an instruction that goes on in sequence. -/
def State.nextInstr (s : State) : State := s.advance 2

/-- A skip: past the next word when the condition holds (R105: without looking at it). -/
def State.skipIf (s : State) (c : Bool) : State := if c then s.advance 4 else s.advance 2

/-- `pc <- target`. -/
def State.jumpTo (s : State) (target : Word) : State := { s with pc := target }

/-! ## Stack (R36, R37) -/

/-- Push: `stack[sp] <- v`, then `sp <- sp + 1`; no answer when the stack holds 15 entries. -/
def State.push (s : State) (v : Word) : Option State :=
  if h : s.sp.val < Config.stackDepth then
    some { s with stack := s.stack.set s.sp.val v, sp := ⟨s.sp.val + 1, Nat.succ_lt_succ h⟩ }
  else none

/-- Pop: `sp <- sp - 1`, then the value is `stack[sp]`, which keeps it; no answer when the stack is empty. -/
def State.pop (s : State) : Option (Word × State) :=
  if s.sp.val = 0 then none
  else
    have h : s.sp.val - 1 < 15 := by have := s.sp.isLt; omega
    some (s.stack[s.sp.val - 1], { s with sp := ⟨s.sp.val - 1, Nat.lt_succ_of_lt h⟩ })

/-! ## Halting (R34, R35, R160, R166, R170) -/

/-- The 3-bit code of a cause (R35, R160). -/
def HaltCause.code : HaltCause → BitVec 3
  | .none => 0
  | .quit => 1
  | .unknownOpcode => 2
  | .stackOverflow => 3
  | .stackUnderflow => 4
  | .outOfBoundsAccess => 5
  | .misalignedFetch => 6

/-- Enter Halted with a cause and an opcode, and write nothing else. -/
def State.halt (s : State) (cause : HaltCause) (opcode : Word) : State :=
  { s with run := .halted, haltCause := cause, haltOpcode := opcode }

/-- TAKING AN EXCEPTION: `raise <Fault>(info)` (R8, R170). On this machine a fault saves no register, changes no
mode and goes to no handler: it halts, `pc` staying at the faulting instruction, and there is no return from it
(R171: only reset leaves Halted, `State.resetWith`). -/
def State.raise (s : State) (fault : HaltCause) (info : Word) : State := s.halt fault info

/-! ## Timers (R175) -/

/-- One count down; a timer at 0 stays at 0. -/
def countDown (t : Byte) : Byte := if t = 0 then 0 else t - 1

/-- The `Tick` step. -/
def State.tick (s : State) : State := { s with DT := countDown s.DT, ST := countDown s.ST }

/-! ## Inputs and the key latch (R33, R181, R196) -/

/-- The next input, and the state without it: the first pending one, else a free one. -/
def State.takeInput (s : State) : Input × State :=
  match s.pending with
  | i :: rest => (i, { s with pending := rest })
  | [] => (Config.freeInput s.drawn, { s with drawn := s.drawn + 1 })

/-- Key refresh: a key is latched, no key clears the pressed flag and keeps the code. Quit never gets here: the
latch is not updated (R166). -/
def State.refreshKey (s : State) : KeySample → State
  | .key c => { s with keyCode := c, keyPressed := true }
  | .noKey => { s with keyPressed := false }
  | .quit => s

/-! ## Fetch (R53, R54, R55, R197) -/

/-- The word at `pc`, high byte first. -/
def State.wordAtPc (s : State) : Word :=
  wordOfBytes (s.mem.read s.pc.toNat) (s.mem.read (s.pc.toNat + 1))

/-- The fetch: the bound is checked before the alignment. It does not change `pc`. -/
def State.fetch (s : State) : Except HaltCause Word :=
  if 0x0FFE < s.pc.toNat then .error .outOfBoundsAccess
  else if s.pc.getLsbD 0 then .error .misalignedFetch
  else .ok s.wordAtPc

end Sys2Proof.Machine
end

