-- ==== Sys2Proof/Machine/Operands.lean ====
section
/-! DEFINITION. The operand forms (30_encoding.md R74; 20_memory.md R58): a register, an immediate byte, a 12-bit
address, the delay timer, the latched key, and bytes of memory at `I`. -/

namespace Sys2Proof.Machine

/-- A register operand `V[x]`: the index is the field itself. -/
def regOperand (s : State) (x : RegIdx) : Byte := s.reg x

/-- A register operand as a 16-bit addend: `zext_16(V[x])` (R140). -/
def regOperand16 (s : State) (x : RegIdx) : Word := (s.reg x).setWidth 16

/-- The immediate `kk`: used as it stands. -/
def immOperand (kk : Byte) : Byte := kk

/-- The address `nnn`: `zext_16(nnn)`, always 0x0000..0x0FFF. -/
def addrOperand (nnn : Addr12) : Word := nnn.setWidth 16

/-- The latched key as a byte: `zext_8(key_code)` (R130, R132). -/
def keyOperand (s : State) : Byte := s.keyCode.setWidth 8

/-- The bytes at `I .. I + n - 1`, the one addressing mode of data (44_index_memory.md): no answer when they leave
memory. `I` is not changed by the access. -/
def indexedOperand (s : State) (n : Nat) : Option (List Byte) := memRead s s.I.toNat n

end Sys2Proof.Machine
end

