-- ==== Sys2Proof/Machine/Flags.lean ====
section
/-! DEFINITION. Flag computations and conditions. The only flag of the machine is VF, and only the draw writes it
as a flag (10_state.md R24); no instruction produces a carry or a borrow (R12). -/

namespace Sys2Proof.Machine

/-- VF, register 15 (R20, R24). -/
abbrev flagReg : RegIdx := 15

/-- The fourth case of the pixel-flip rule (R123): a lit pixel under a 1 bit. -/
def collides (old bit : Bool) : Bool := old && bit

/-- The value VF receives: 0x01 on a collision, else 0x00 (R124). -/
def flagByte (collision : Bool) : Byte := if collision then 0x01#8 else 0x00#8

/-- Write VF as a flag. -/
def State.setFlag (s : State) (collision : Bool) : State := s.setReg flagReg (flagByte collision)

/-- The condition of `3xkk` and, inverted, of `4xkk`: equality of 8-bit values (R103, R104). -/
def equalsImm (s : State) (x : RegIdx) (kk : Byte) : Bool := regOperand s x == immOperand kk

/-- The match condition of `ExA1` (R130): a key is pressed and its zero-extended code equals the whole 8-bit
register. -/
def keyMatches (s : State) (x : RegIdx) : Bool := s.keyPressed && keyOperand s == regOperand s x

end Sys2Proof.Machine
end

