-- ==== Sys2Proof/Machine/Data.lean ====
section
/-! DEFINITION. Register data (41_data.md): LD_VX_KK, ADD_VX_KK, LD_VX_VY, LD_I_NNN. None writes a flag, touches
memory or can fault. -/

namespace Sys2Proof.Machine

/-- `6xkk` (R110). -/
def execLdVxKk (x : RegIdx) (kk : Byte) (s : State) : Host.Outcome State Fault Refusal :=
  .next (s.setReg x (immOperand kk)).nextInstr

/-- `7xkk` (R111): the sum wraps modulo 256 and VF is not written as a flag. -/
def execAddVxKk (x : RegIdx) (kk : Byte) (s : State) : Host.Outcome State Fault Refusal :=
  .next (s.setReg x (regOperand s x + immOperand kk)).nextInstr

/-- `8xy0` (R112): x is the destination, y the source. -/
def execLdVxVy (x y : RegIdx) (s : State) : Host.Outcome State Fault Refusal :=
  .next (s.setReg x (regOperand s y)).nextInstr

/-- `Annn` (R113). -/
def execLdINnn (nnn : Addr12) (s : State) : Host.Outcome State Fault Refusal :=
  .next { s with I := addrOperand nnn }.nextInstr

end Sys2Proof.Machine
end

