-- ==== Sys2Proof/Machine/Draw.lean ====
section
/-! DEFINITION. The draw instruction and the pixel-flip logic (42_draw.md). -/

namespace Sys2Proof.Machine

/-- What the draw has done so far: the framebuffer, whether a lit pixel was met by a 1 bit, and the tuples emitted,
oldest first. -/
structure Drawing where
  fb : Framebuffer
  collision : Bool
  events : List PixelEvent
  deriving DecidableEq, Repr

/-- The framebuffer column of sprite column `c` (R122): each pixel wraps on its own. -/
def pixelColumn (x0 : Byte) (c : Nat) : Fin 64 := ⟨(x0.toNat + c) % 64, Nat.mod_lt _ (by decide)⟩

/-- The framebuffer row of sprite row `r` (R122). -/
def pixelRow (y0 : Byte) (r : Nat) : Fin 32 := ⟨(y0.toNat + r) % 32, Nat.mod_lt _ (by decide)⟩

/-- The index of a pixel: `y*64 + x` (R38). -/
def pixelIndex (px : Fin 64) (py : Fin 32) : Nat := py.val * 64 + px.val

/-- Bit of a sprite row at column `c`: the most significant bit is the leftmost (R56, R122). -/
def spriteBit (row : Byte) (c : Nat) : Bool := row.getLsbD (7 - c)

/-- The bit at index `j` turned over. -/
def Framebuffer.flip (fb : Framebuffer) (j : Nat) : Framebuffer := fb ^^^ BitVec.twoPow 2048 j

/-- A 1 bit of the sprite at a pixel (R123, R126): note a collision, flip the pixel, emit its new state. -/
def Drawing.flipPixel (d : Drawing) (px : Fin 64) (py : Fin 32) : Drawing where
  fb := Framebuffer.flip d.fb (pixelIndex px py)
  collision := d.collision || collides (d.fb.getLsbD (pixelIndex px py)) true
  events := d.events ++ [⟨px, py, !d.fb.getLsbD (pixelIndex px py)⟩]

/-- One bit of the sprite; a 0 bit changes nothing (R123). -/
def Drawing.drawBit (d : Drawing) (px : Fin 64) (py : Fin 32) (bit : Bool) : Drawing :=
  if bit then d.flipPixel px py else d

/-- One row of the sprite, left to right. -/
def Drawing.drawRow (d : Drawing) (x0 : Byte) (py : Fin 32) (row : Byte) : Drawing :=
  (List.range 8).foldl (fun d c => d.drawBit (pixelColumn x0 c) py (spriteBit row c)) d

/-- The rows of the sprite, top to bottom, the first being row `r`. -/
def Drawing.drawRowsFrom (d : Drawing) (x0 y0 : Byte) (r : Nat) : List Byte → Drawing
  | [] => d
  | row :: rows => (d.drawRow x0 (pixelRow y0 r) row).drawRowsFrom x0 y0 (r + 1) rows

/-- The whole sprite at `(x0, y0)`. -/
def drawSprite (fb : Framebuffer) (x0 y0 : Byte) (rows : List Byte) : Drawing :=
  Drawing.drawRowsFrom ⟨fb, false, []⟩ x0 y0 0 rows

/-- `Dxyn` (R120): the coordinates are read before VF is written (R121), the sprite bytes before any pixel changes
(R125), VF is written once at the end (R124). With `n = 0` nothing is read and VF becomes 0 (R127). -/
def execDrw (x y : RegIdx) (n : RowCount) (s : State) : Host.Outcome State Fault Refusal :=
  match indexedOperand s n.val with
  | none => .next (s.raise .outOfBoundsAccess (encode (.drw x y n)))
  | some rows =>
    let d := drawSprite s.fb (regOperand s x) (regOperand s y) rows
    .next ({ s with fb := d.fb, display := s.display ++ d.events }.setFlag d.collision).nextInstr

end Sys2Proof.Machine
end

