-- ==== Sys2Proof/Machine/Flow.lean ====
section
/-! DEFINITION. Control transfer (40_flow.md): RET, JP, CALL, SE, SNE. -/

namespace Sys2Proof.Machine

/-- `00EE` (R100): pop, and go on at the instruction after the call; StackUnderflow on an empty stack. -/
def execRet (s : State) : Host.Outcome State Fault Refusal :=
  match s.pop with
  | none => .next (s.raise .stackUnderflow (encode .ret))
  | some (v, t) => .next (t.jumpTo (v + 2))

/-- `1nnn` (R101): `pc <- zext_16(nnn)`; the target is not checked here. -/
def execJp (nnn : Addr12) (s : State) : Host.Outcome State Fault Refusal :=
  .next (s.jumpTo (addrOperand nnn))

/-- `2nnn` (R102): push the address of this instruction, then jump; StackOverflow on a full stack. -/
def execCall (nnn : Addr12) (s : State) : Host.Outcome State Fault Refusal :=
  match s.push s.pc with
  | none => .next (s.raise .stackOverflow (encode (.call nnn)))
  | some t => .next (t.jumpTo (addrOperand nnn))

/-- `3xkk` (R103). -/
def execSe (x : RegIdx) (kk : Byte) (s : State) : Host.Outcome State Fault Refusal :=
  .next (s.skipIf (equalsImm s x kk))

/-- `4xkk` (R104). -/
def execSne (x : RegIdx) (kk : Byte) (s : State) : Host.Outcome State Fault Refusal :=
  .next (s.skipIf (!equalsImm s x kk))

end Sys2Proof.Machine
end

