-- ==== Sys2Proof/Machine/IndexMemory.lean ====
section
/-! DEFINITION. Address register and memory load (44_index_memory.md): ADD_I_VX, LD_VX_MEMI. -/

namespace Sys2Proof.Machine

/-- `Fx1E` (R140): the sum wraps modulo 65536 and VF is not written. -/
def execAddIVx (x : RegIdx) (s : State) : Host.Outcome State Fault Refusal :=
  .next { s with I := s.I + regOperand16 s x }.nextInstr

/-- `Fx65` (R141): `x + 1` bytes into V0..Vx, `I` unchanged; OutOfBoundsAccess before any register is written. -/
def execLdVxMemi (x : RegIdx) (s : State) : Host.Outcome State Fault Refusal :=
  match indexedOperand s (x.val + 1) with
  | none => .next (s.raise .outOfBoundsAccess (encode (.ldVxMemi x)))
  | some bytes => .next (s.setRegsFrom 0 bytes).nextInstr

end Sys2Proof.Machine
end

