-- ==== Sys2Proof/Machine/KeyTimer.lean ====
section
/-! DEFINITION. Keys and the delay timer (43_key_timer.md): SKNP, LD_VX_DT, LD_VX_K, LD_DT_VX. The key latch they
read is the one refreshed at the start of the same cycle (R196). -/

namespace Sys2Proof.Machine

/-- `ExA1` (R130): skip unless the latched key is pressed and equals the register. -/
def execSknp (x : RegIdx) (s : State) : Host.Outcome State Fault Refusal :=
  .next (s.skipIf (!keyMatches s x))

/-- `Fx07` (R131). -/
def execLdVxDt (x : RegIdx) (s : State) : Host.Outcome State Fault Refusal :=
  .next (s.setReg x s.DT).nextInstr

/-- `Fx0A` (R132): with a key pressed, its code; with none, `Suspend(x)`: no state is written, `pc` neither, so the
next cycle executes the instruction again. -/
def execLdVxK (x : RegIdx) (s : State) : Host.Outcome State Fault Refusal :=
  if s.keyPressed then .next (s.setReg x (keyOperand s)).nextInstr else .next s

/-- `Fx15` (R133). -/
def execLdDtVx (x : RegIdx) (s : State) : Host.Outcome State Fault Refusal :=
  .next { s with DT := regOperand s x }.nextInstr

end Sys2Proof.Machine
end

