-- ==== Sys2Proof/Machine/Unknown.lean ====
section
/-! DEFINITION. Unknown words (45_unknown.md). -/

namespace Sys2Proof.Machine

/-- Any other word (R150, R161): UnknownOpcode, with the word recorded. -/
def execUnknown (w : Word) (s : State) : Host.Outcome State Fault Refusal :=
  .next (s.raise .unknownOpcode (encode (.unknown w)))

end Sys2Proof.Machine
end

