-- ==== Sys2Proof/Machine/Cycle.lean ====
section
/-! DEFINITION. One instruction cycle and one input (70_reset_and_hazards.md R195 to R197; 00_scope.md R9), and where
an instruction is placed so that the next step runs it. -/

namespace Sys2Proof.Machine

/-- Fetch, decode and execute, the key latch being refreshed already. A fault of the fetch records opcode 0 (R35). -/
def fetchDecodeExecute (s : State) : Host.Outcome State Fault Refusal :=
  match s.fetch with
  | .error fault => .next (s.raise fault 0x0000#16)
  | .ok w => exec (decode w) s

/-- `Cycle(k)` (R195, R196): quit halts before anything else; otherwise the key refresh comes first. -/
def cycle (k : KeySample) (s : State) : Host.Outcome State Fault Refusal :=
  match k with
  | .quit => .next (s.halt .quit 0x0000#16)
  | .noKey => fetchDecodeExecute (s.refreshKey .noKey)
  | .key c => fetchDecodeExecute (s.refreshKey (.key c))

/-- The atomic step an input selects (R9). -/
def runInput (i : Input) (s : State) : Host.Outcome State Fault Refusal :=
  match i with
  | .tick => .next s.tick
  | .cycle k => cycle k s

/-- Take the next input and run it. -/
def runNextInput (s : State) : Host.Outcome State Fault Refusal :=
  runInput s.takeInput.1 s.takeInput.2

/-- One instruction word stored at `pc`, high byte first, and an instruction cycle with no key as the next input.
Where `pc` leaves no room for the word memory stays as it is. -/
def State.placeWord (s : State) (w : Word) : State :=
  let t := (memWrite s s.pc.toNat (bytesOfWord w)).getD s
  { t with pending := .cycle .noKey :: s.pending }

end Sys2Proof.Machine
end

