-- ==== Sys2Proof/Machine/Step.lean ====
section
/-! DEFINITION. One step of the machine (00_scope.md R9). -/

namespace Sys2Proof.Machine

/-- One step: `Cycle(k)` or `Tick`, as the next input says; both are enabled only while Running (R9, R34). In
Halted no step is enabled (R171). -/
def step (s : State) : Host.Outcome State Fault Refusal :=
  match s.run with
  | .running => runNextInput s
  | .halted => .fault .haltedNoStep

/-- The instruction numbered `w` as the opcode table numbers it, stored where the next step fetches, with the
input that makes the next step a cycle (log entry 4). -/
def State.withFetchWord (s : State) (nbits w : Nat) : State := s.placeWord (tableWord nbits w)

end Sys2Proof.Machine
end

