-- ==== Sys2Proof/Machine/HostInterface.lean ====
section
/-! DEFINITION. What crosses the machine's boundary (60_exceptions.md R178 to R182; 70_reset_and_hazards.md R190 to
R193): reset, the load channel, the key table, the inputs, and what the host reads from a Halted machine. -/

namespace Sys2Proof.Machine

/-- Reset over any contents of memory (R42, R45: `mem = MEM_INIT`). It may be applied in any state and keeps nothing
of it (R190). -/
def State.resetWith (memInit : Memory) : State := { State.reset with mem := memInit }

/-- Why the Loader fails (R167, R192). -/
inductive LoadError where
  | unreadable
  | empty
  | oversized
  deriving DecidableEq, Repr

/-- Load (R179, R192): copy the image to 0x200 and on; no other state is written. An unreadable source is `none`. -/
def State.load (s : State) : Option (List Byte) → Except LoadError State
  | none => .error .unreadable
  | some image =>
    if image.length = 0 then .error .empty
    else if Config.maxImage < image.length then .error .oversized
    else .ok { s with mem := s.mem.writeFrom Config.origin image }

/-- Launch (R193): the reset state over `memInit` with the image loaded, if it can be. -/
def launch (memInit : Memory) (image : List Byte) : Option State :=
  match (State.resetWith memInit).load (some image) with
  | .ok s => some s
  | .error _ => none

/-- The inputs the outside world gives next, before those already pending. -/
def State.withInputs (s : State) (inputs : List Input) : State := { s with pending := inputs ++ s.pending }

/-- The fixed table from key symbols to samples (R181); every other symbol is no key. -/
def keyOfSymbol (c : Char) : KeySample :=
  if c = '0' then .key 0 else if c = '1' then .key 1 else if c = '2' then .key 2 else if c = '3' then .key 3
  else if c = '4' then .key 4 else if c = '5' then .key 5 else if c = '6' then .key 6 else if c = '7' then .key 7
  else if c = '8' then .key 8 else if c = '9' then .key 9 else if c = 'a' then .key 10 else if c = 'b' then .key 11
  else if c = 'c' then .key 12 else if c = 'd' then .key 13 else if c = 'e' then .key 14 else if c = 'f' then .key 15
  else if c = 'q' then .quit else .noKey

/-- The diagnostic snapshot (R182): the whole state of 10_state.md section 1 but `run`, which is Halted whenever there
is a snapshot. R182's quoted list and R33 do not name the key latch, while R44, R182 and the glossary say "the whole
state"; R182 calls memory and framebuffer optional. That the latch, memory and the framebuffer are shown is log entry
18 (DESIGN CHOICE). -/
structure Snapshot where
  V : Vector Byte 16
  I : Word
  pc : Word
  sp : Fin 16
  /-- "stack contents": the live entries, oldest first. -/
  stackContents : List Word
  /-- All 15 slots; those from `sp` on are readable but not meaningful. -/
  stack : Vector Word 15
  DT : Byte
  ST : Byte
  mem : Memory
  fb : Framebuffer
  keyCode : KeyCode
  keyPressed : Bool
  haltCause : BitVec 3
  haltOpcode : Word
  deriving DecidableEq, Repr

/-- The live entries `stack[0 .. sp - 1]`, oldest first (R36, R182). -/
def State.liveStack (s : State) : List Word := s.stack.toList.take s.sp.val

/-- The whole state as the host sees it, with the cause as its number (R182). -/
def State.dump (s : State) : Snapshot where
  V := s.V
  I := s.I
  pc := s.pc
  sp := s.sp
  stackContents := s.liveStack
  stack := s.stack
  DT := s.DT
  ST := s.ST
  mem := s.mem
  fb := s.fb
  keyCode := s.keyCode
  keyPressed := s.keyPressed
  haltCause := s.haltCause.code
  haltOpcode := s.haltOpcode

/-- What the host reads: the snapshot once Halted, nothing while Running (R182). -/
def State.snapshot (s : State) : Option Snapshot :=
  match s.run with
  | .running => none
  | .halted => some s.dump

/-- The process exit of a Halted machine: success exactly for the quit input (R171, R182). -/
def State.exitSuccess (s : State) : Option Bool :=
  match s.run with
  | .running => none
  | .halted => some (decide (s.haltCause.code = 1))

end Sys2Proof.Machine
end

