-- ==== Sys2Proof/Safety.lean ====
section
/-! DEFINITION. The terms the claims about runs are stated in: when an instruction faults, where it leaves `pc`, which
registers it may read and write, when a step halts, and the invariant of every run. Each is written from the spec's
own rule, not from the meanings in Machine/. -/

namespace Sys2Proof

/-- May the instruction write register `r` (R22)? -/
def Instr.writesReg : Instr → RegIdx → Bool
  | .ldVxKk x _, r => r == x
  | .addVxKk x _, r => r == x
  | .ldVxVy x _, r => r == x
  | .drw _ _ _, r => r == 15
  | .ldVxDt x, r => r == x
  | .ldVxK x, r => r == x
  | .ldVxMemi x, r => decide (r ≤ x)
  | .ret, _ => false
  | .jp _, _ => false
  | .call _, _ => false
  | .se _ _, _ => false
  | .sne _ _, _ => false
  | .ldINnn _, _ => false
  | .sknp _, _ => false
  | .ldDtVx _, _ => false
  | .addIVx _, _ => false
  | .unknown _, _ => false

/-- May the instruction read register `r` (R22)? -/
def Instr.readsReg : Instr → RegIdx → Bool
  | .addVxKk x _, r => r == x
  | .ldVxVy _ y, r => r == y
  | .se x _, r => r == x
  | .sne x _, r => r == x
  | .sknp x, r => r == x
  | .ldDtVx x, r => r == x
  | .addIVx x, r => r == x
  | .drw x y _, r => r == x || r == y
  | .ret, _ => false
  | .jp _, _ => false
  | .call _, _ => false
  | .ldVxKk _ _, _ => false
  | .ldINnn _, _ => false
  | .ldVxDt _, _ => false
  | .ldVxK _, _ => false
  | .ldVxMemi _, _ => false
  | .unknown _, _ => false

/-- Does the instruction read memory after its fetch (R58: the sprite read and the register load)? -/
def Instr.readsMem : Instr → Bool
  | .drw _ _ _ => true
  | .ldVxMemi _ => true
  | .ret => false
  | .jp _ => false
  | .call _ => false
  | .se _ _ => false
  | .sne _ _ => false
  | .ldVxKk _ _ => false
  | .addVxKk _ _ => false
  | .ldVxVy _ _ => false
  | .ldINnn _ => false
  | .sknp _ => false
  | .ldVxDt _ => false
  | .ldVxK _ => false
  | .ldDtVx _ => false
  | .addIVx _ => false
  | .unknown _ => false

end Sys2Proof

namespace Sys2Proof.Machine

/-- The fault an instruction raises in a state, by the table of R160 (R161 to R164, R168): the other 11 raise
none. -/
def faultOf : Instr → State → Option HaltCause
  | .ret, s => if s.sp.val = 0 then some .stackUnderflow else none
  | .call _, s => if s.sp.val = 15 then some .stackOverflow else none
  | .drw _ _ n, s => if 1 ≤ n.val ∧ 0xFFF < s.I.toNat + n.val - 1 then some .outOfBoundsAccess else none
  | .ldVxMemi x, s => if 0xFFF < s.I.toNat + x.val then some .outOfBoundsAccess else none
  | .unknown _, _ => some .unknownOpcode
  | .jp _, _ => none
  | .se _ _, _ => none
  | .sne _ _, _ => none
  | .ldVxKk _ _, _ => none
  | .addVxKk _ _, _ => none
  | .ldVxVy _ _, _ => none
  | .ldINnn _, _ => none
  | .sknp _, _ => none
  | .ldVxDt _, _ => none
  | .ldVxK _, _ => none
  | .ldDtVx _, _ => none
  | .addIVx _, _ => none

/-- Where a completed instruction leaves `pc` (R27). -/
def pcAfter : Instr → State → Word
  | .ret, s => if h : 0 < s.sp.val then s.stack[s.sp.val - 1]'(by have := s.sp.isLt; omega) + 2 else s.pc
  | .jp nnn, _ => nnn.setWidth 16
  | .call nnn, _ => nnn.setWidth 16
  | .se x kk, s => if s.reg x = kk then s.pc + 4 else s.pc + 2
  | .sne x kk, s => if s.reg x ≠ kk then s.pc + 4 else s.pc + 2
  | .sknp x, s => if s.keyPressed = true ∧ s.keyCode.toNat = (s.reg x).toNat then s.pc + 2 else s.pc + 4
  | .ldVxK _, s => if s.keyPressed = true then s.pc + 2 else s.pc
  | .ldVxKk _ _, s => s.pc + 2
  | .addVxKk _ _, s => s.pc + 2
  | .ldVxVy _ _, s => s.pc + 2
  | .ldINnn _, s => s.pc + 2
  | .drw _ _ _, s => s.pc + 2
  | .ldVxDt _, s => s.pc + 2
  | .ldDtVx _, s => s.pc + 2
  | .addIVx _, s => s.pc + 2
  | .ldVxMemi _, s => s.pc + 2
  | .unknown _, s => s.pc

/-! ## The draw (R122) -/

/-- The framebuffer index that sprite row `r`, column `c` of a sprite at `(x0, y0)` lands on. -/
def spriteIndex (x0 y0 : Byte) (r c : Nat) : Nat := (y0.toNat + r) % 32 * 64 + (x0.toNat + c) % 64

/-- The bit of the sprite at `I`: row `r` is the byte at `I + r`, column `c` its bit `7 - c`. -/
def State.spriteBitAt (s : State) (r c : Nat) : Bool := (s.mem.read (s.I.toNat + r)).getLsbD (7 - c)

/-! ## Steps that halt (R34, R160, R169) -/

/-- Is the next word fetchable (R53, R54)? -/
def State.fetchable (s : State) : Prop := s.pc.toNat ≤ 0x0FFE ∧ s.pc.toNat % 2 = 0

/-- Does the step of a Running machine enter Halted? On the quit input, on a fetch fault, or on the fault of the
fetched instruction; never on a tick. -/
def State.stepHalts (s : State) : Prop :=
  match s.takeInput.1 with
  | .tick => False
  | .cycle .quit => True
  | .cycle _ => ¬s.fetchable ∨ faultOf (decode s.wordAtPc) s ≠ none

/-! ## The invariant of every run -/

/-- A stack slot holds the address of a fetched call, or the zero of reset: even and at most 0x0FFE (R28, R100). -/
def slotFetchable (v : Word) : Prop := v.toNat ≤ 0x0FFE ∧ v.toNat % 2 = 0

/-- What the halt record says of the rest of the snapshot (R35, R160 to R166): while Running it is at its reset
value; once Halted it names the condition that holds, and the opcode is the word that `pc` still addresses, or 0
where no word was fetched. -/
def State.haltRecordTrue (s : State) : Prop :=
  match s.run, s.haltCause with
  | .running, c => c = .none ∧ s.haltOpcode = 0#16
  | .halted, .none => False
  | .halted, .quit => s.haltOpcode = 0#16
  | .halted, .unknownOpcode =>
    s.fetchable ∧ s.haltOpcode = s.wordAtPc ∧ isInstructionWord s.haltOpcode = false
  | .halted, .stackOverflow =>
    s.fetchable ∧ s.haltOpcode = s.wordAtPc ∧ s.haltOpcode &&& 0xF000#16 = 0x2000#16 ∧ s.sp.val = 15
  | .halted, .stackUnderflow => s.fetchable ∧ s.haltOpcode = s.wordAtPc ∧ s.haltOpcode = 0x00EE#16 ∧ s.sp.val = 0
  | .halted, .outOfBoundsAccess =>
    (0x0FFE < s.pc.toNat ∧ s.haltOpcode = 0#16) ∨
    (s.fetchable ∧ s.haltOpcode = s.wordAtPc ∧
      ((s.haltOpcode &&& 0xF000#16 = 0xD000#16 ∧ 1 ≤ (s.haltOpcode &&& 0x000F#16).toNat ∧
          0x1000 < s.I.toNat + (s.haltOpcode &&& 0x000F#16).toNat) ∨
       (s.haltOpcode &&& 0xF0FF#16 = 0xF065#16 ∧ 0x0FFF < s.I.toNat + ((s.haltOpcode >>> 8) &&& 0x000F#16).toNat)))
  | .halted, .misalignedFetch => s.pc.toNat ≤ 0x0FFE ∧ s.pc.toNat % 2 = 1 ∧ s.haltOpcode = 0#16

/-- The invariant: memory is in canonical form, `pc` is at most 0x1002 (R28), every stack slot is a fetchable address
(R28), the sound timer is 0 (R31), and the halt record is true of the snapshot. -/
structure State.Inv (s : State) : Prop where
  mem_wf : s.mem.wf = true
  pc_le : s.pc.toNat ≤ 0x1002
  stack_fetchable : ∀ j : Fin 15, slotFetchable (s.stack.get j)
  st_zero : s.ST = 0
  halt_record : s.haltRecordTrue

end Sys2Proof.Machine
end

