-- ==== Sys2Proof/Certificates/Slice0/Obligations.lean ====
section
/-! DEFINITION. The statements for the provers. An equation `exec i s = .next { s with … }` says the instruction
completes in every state, what it writes, and that every other field (registers, memory byte for byte, stack, timers,
pixels, latch, halt record) is as before. In states no run reaches (`pc` or a popped value above 0xFFFD) the 16-bit
sums wrap, log entry 3. -/

open Sys2Proof Sys2Proof.Machine

/-! ## Encoding -/

/-- Words written out bit by bit from the spec's encodings (30_encoding.md sections 3 and 6), at least one a format,
and words next to them that are Unknown. -/
def Obligations.SpecWordsDecodeToTheirInstructions : Prop :=
  decode 0b0000000011101110#16 = .ret ∧
  decode 0b0010001100000000#16 = .call 0x300 ∧
  decode 0b0011101001111111#16 = .se 10 0x7F ∧
  decode 0b0110000000000101#16 = .ldVxKk 0 0x05 ∧
  decode 0b1000101000110000#16 = .ldVxVy 10 3 ∧
  decode 0b1101000000010010#16 = .drw 0 1 2 ∧
  decode 0b1110000110100001#16 = .sknp 1 ∧
  decode 0b1111000101100101#16 = .ldVxMemi 1 ∧
  decode 0b0000000011100000#16 = .unknown 0x00E0 ∧
  decode 0b1000000100100001#16 = .unknown 0x8121 ∧
  decode 0b1110000110011110#16 = .unknown 0xE19E ∧
  decode 0b1111111111111111#16 = .unknown 0xFFFF

/-- R76: each of the 16 rows, `w AND mask = match` exactly when the word is that instruction (with its fields where
R72 puts them), and a word that matches none of the rows is `Unknown(w)`. -/
def Obligations.DecodeAgreesWithMaskAndMatch : Prop :=
  ∀ w : Word,
    (w &&& 0xFFFF#16 = 0x00EE#16 ↔ decode w = .ret) ∧
    (w &&& 0xF000#16 = 0x1000#16 ↔ decode w = .jp (w.extractLsb' 0 12)) ∧
    (w &&& 0xF000#16 = 0x2000#16 ↔ decode w = .call (w.extractLsb' 0 12)) ∧
    (w &&& 0xF000#16 = 0x3000#16 ↔ decode w = .se (w.extractLsb' 8 4).toFin (w.extractLsb' 0 8)) ∧
    (w &&& 0xF000#16 = 0x4000#16 ↔ decode w = .sne (w.extractLsb' 8 4).toFin (w.extractLsb' 0 8)) ∧
    (w &&& 0xF000#16 = 0x6000#16 ↔ decode w = .ldVxKk (w.extractLsb' 8 4).toFin (w.extractLsb' 0 8)) ∧
    (w &&& 0xF000#16 = 0x7000#16 ↔ decode w = .addVxKk (w.extractLsb' 8 4).toFin (w.extractLsb' 0 8)) ∧
    (w &&& 0xF00F#16 = 0x8000#16 ↔ decode w = .ldVxVy (w.extractLsb' 8 4).toFin (w.extractLsb' 4 4).toFin) ∧
    (w &&& 0xF000#16 = 0xA000#16 ↔ decode w = .ldINnn (w.extractLsb' 0 12)) ∧
    (w &&& 0xF000#16 = 0xD000#16 ↔
      decode w = .drw (w.extractLsb' 8 4).toFin (w.extractLsb' 4 4).toFin (w.extractLsb' 0 4).toFin) ∧
    (w &&& 0xF0FF#16 = 0xE0A1#16 ↔ decode w = .sknp (w.extractLsb' 8 4).toFin) ∧
    (w &&& 0xF0FF#16 = 0xF007#16 ↔ decode w = .ldVxDt (w.extractLsb' 8 4).toFin) ∧
    (w &&& 0xF0FF#16 = 0xF00A#16 ↔ decode w = .ldVxK (w.extractLsb' 8 4).toFin) ∧
    (w &&& 0xF0FF#16 = 0xF015#16 ↔ decode w = .ldDtVx (w.extractLsb' 8 4).toFin) ∧
    (w &&& 0xF0FF#16 = 0xF01E#16 ↔ decode w = .addIVx (w.extractLsb' 8 4).toFin) ∧
    (w &&& 0xF0FF#16 = 0xF065#16 ↔ decode w = .ldVxMemi (w.extractLsb' 8 4).toFin) ∧
    (isInstructionWord w = false ↔ decode w = .unknown w)

/-- Decoding the bytes of any well-formed instruction, every operand at every value, whatever bytes follow, gives the
instruction back and the bytes that follow (30_encoding.md sections 1 and 6). -/
def Obligations.DecodeInvertsEncode : Prop :=
  ∀ (i : Instr) (rest : List Byte), i.wf = true →
    decode (encode i) = i ∧ decodeBytes (encodeBytes i ++ rest) = .ok (i, rest)

/-- Every word decodes, to a well-formed instruction whose encoding is that word and no other: no bit is dropped and
each word has one meaning (30_encoding.md sections 1, 3 and 6). -/
def Obligations.EncodeInvertsDecode : Prop :=
  ∀ w : Word, (decode w).wf = true ∧ encode (decode w) = w

/-! ## Control transfer -/

/-- R100. -/
def Obligations.ReturnPopsAndContinuesAfterTheCall : Prop :=
  ∀ s : State,
    (s.sp.val = 0 → exec .ret s =
      .next { s with run := .halted, haltCause := .stackUnderflow, haltOpcode := 0x00EE#16 }) ∧
    (∀ (n : Nat) (h : n < 15), s.sp.val = n + 1 → exec .ret s =
      .next { s with sp := ⟨n, Nat.lt_succ_of_lt h⟩, pc := s.stack[n] + 2 })

/-- R101. -/
def Obligations.JumpSetsProgramCounterOnly : Prop :=
  ∀ (nnn : Addr12) (s : State), exec (.jp nnn) s = .next { s with pc := nnn.setWidth 16 }

/-- A call below 15 entries pushes its own address and jumps (40_flow.md; that a full stack fails and does not
saturate is the spec's decision D13, stated by StackOverflowChangesNothingElse). -/
def Obligations.CallPushesItsOwnAddressAndJumps : Prop :=
  ∀ (nnn : Addr12) (s : State) (h : s.sp.val < 15),
    exec (.call nnn) s =
      .next { s with
        stack := s.stack.set s.sp.val s.pc
        sp := ⟨s.sp.val + 1, Nat.succ_lt_succ h⟩
        pc := nnn.setWidth 16 }

/-- A full stack fails and does not saturate (the spec's decision D13), and the call leaves the stack, `sp`, `pc` and
everything but the halt record as they were (40_flow.md; 60_exceptions.md section 1; that all else is kept is the
spec's decision D21, log entry 13). -/
def Obligations.StackOverflowChangesNothingElse : Prop :=
  ∀ (nnn : Addr12) (s : State), s.sp.val = 15 →
    exec (.call nnn) s =
      .next { s with run := .halted, haltCause := .stackOverflow, haltOpcode := 0x2#4 ++ nnn }

/-- A call and the return that ends it: `pc` is the call site plus 2 and the stack count is what it was, whatever the
subroutine did to everything but the stack (40_flow.md; 95_test_vectors.md S2). -/
def Obligations.CallThenReturnComesBack : Prop :=
  ∀ (nnn : Addr12) (s t u v : State),
    s.sp.val < 15 → exec (.call nnn) s = .next t → u.stack = t.stack → u.sp = t.sp → exec .ret u = .next v →
      v.pc = s.pc + 2 ∧ v.sp = s.sp ∧ ∀ j : Fin 15, j.val ≠ s.sp.val → v.stack.get j = s.stack.get j

/-- R103. -/
def Obligations.SkipIfEqualTestsTheImmediate : Prop :=
  ∀ (x : RegIdx) (kk : Byte) (s : State),
    exec (.se x kk) s = .next { s with pc := if s.reg x = kk then s.pc + 4 else s.pc + 2 }

/-- R104. -/
def Obligations.SkipIfNotEqualTestsTheImmediate : Prop :=
  ∀ (x : RegIdx) (kk : Byte) (s : State),
    exec (.sne x kk) s = .next { s with pc := if s.reg x ≠ kk then s.pc + 4 else s.pc + 2 }

/-! ## Register data -/

/-- R110. -/
def Obligations.LoadImmediateWritesTheByte : Prop :=
  ∀ (x : RegIdx) (kk : Byte) (s : State),
    exec (.ldVxKk x kk) s = .next { s with V := s.V.set x.val kk, pc := s.pc + 2 }

/-- R111: the sum wraps modulo 256, and VF keeps its value unless it is the destination. -/
def Obligations.AddImmediateWrapsAndKeepsTheFlag : Prop :=
  ∀ (x : RegIdx) (kk : Byte) (s : State), ∃ t,
    exec (.addVxKk x kk) s = .next t ∧
    t = { s with V := s.V.set x.val (BitVec.ofNat 8 (((s.reg x).toNat + kk.toNat) % 256)), pc := s.pc + 2 } ∧
    (x ≠ 15 → t.reg 15 = s.reg 15)

/-- The copy writes the register named first and keeps the one named second, and the other words of family 8 are Unknown
(41_data.md 8xy0; the direction is the spec's own reading, 91_not_in_source.md N9, log entry 17, DEDUCED). -/
def Obligations.CopyWritesTheFirstRegister : Prop :=
  (∀ (x y : RegIdx) (s : State), ∃ t,
    exec (.ldVxVy x y) s = .next t ∧
    t = { s with V := s.V.set x.val (s.reg y), pc := s.pc + 2 } ∧
    t.reg y = s.reg y) ∧
  (∀ w : Word, w.extractLsb' 12 4 = 0x8#4 → w.extractLsb' 0 4 ≠ 0x0#4 → decode w = .unknown w)

/-- R113. -/
def Obligations.LoadAddressRegisterZeroExtends : Prop :=
  ∀ (nnn : Addr12) (s : State), ∃ t,
    exec (.ldINnn nnn) s = .next t ∧
    t = { s with I := nnn.setWidth 16, pc := s.pc + 2 } ∧
    t.I.toNat ≤ 0x0FFF

/-! ## Draw -/

/-- The draw completes when its sprite lies in memory or has no row: each sprite pixel becomes old XOR bit, every other
pixel is kept, VF is 1 exactly when a lit pixel lay under a 1 bit and else 0, the coordinates are those before VF is
written, and nothing else changes but `pc` and the output (42_draw.md). The per-pixel wrap is the spec's decision D4,
the operand order D5, the bounds D6 and n = 0 D27. -/
def Obligations.DrawFlipsThePixelsUnderTheSprite : Prop :=
  ∀ (x y : RegIdx) (n : RowCount) (s : State), n.val = 0 ∨ s.I.toNat + n.val ≤ 0x1000 → ∃ t,
    exec (.drw x y n) s = .next t ∧
    (∀ r c, r < n.val → c < 8 → t.fb.getLsbD (spriteIndex (s.reg x) (s.reg y) r c) =
      (s.fb.getLsbD (spriteIndex (s.reg x) (s.reg y) r c) ^^ s.spriteBitAt r c)) ∧
    (∀ j, (∀ r c, r < n.val → c < 8 → j ≠ spriteIndex (s.reg x) (s.reg y) r c) →
      t.fb.getLsbD j = s.fb.getLsbD j) ∧
    ((∃ r c, r < n.val ∧ c < 8 ∧ s.spriteBitAt r c = true ∧
        s.fb.getLsbD (spriteIndex (s.reg x) (s.reg y) r c) = true) → t.reg 15 = 0x01) ∧
    ((∀ r c, r < n.val → c < 8 → s.spriteBitAt r c = true →
        s.fb.getLsbD (spriteIndex (s.reg x) (s.reg y) r c) = false) → t.reg 15 = 0x00) ∧
    (∀ q : RegIdx, q ≠ 15 → t.reg q = s.reg q) ∧
    t = { s with pc := s.pc + 2, fb := t.fb, V := t.V, display := t.display }

/-- A sprite that leaves memory is not drawn at all: OutOfBoundsAccess, with nothing else written (42_draw.md; the
whole-range check is the spec's decision D6, the precise fault D21). -/
def Obligations.DrawOutOfBoundsHalts : Prop :=
  ∀ (x y : RegIdx) (n : RowCount) (s : State), 1 ≤ n.val → 0x0FFF < s.I.toNat + n.val - 1 →
    exec (.drw x y n) s = .next { s with
      run := .halted
      haltCause := .outOfBoundsAccess
      haltOpcode := 0xD#4 ++ BitVec.ofFin (w := 4) x ++ BitVec.ofFin (w := 4) y ++ BitVec.ofFin (w := 4) n }

/-- The output of a draw: one tuple for each 1 bit of the sprite, rows top to bottom and columns left to right, with the
pixel's new state (42_draw.md; the content and order of the stream are the spec's decision D7). -/
def Obligations.DrawEmitsOneEventPerSetBit : Prop :=
  ∀ (x y : RegIdx) (n : RowCount) (s t : State), n.val = 0 ∨ s.I.toNat + n.val ≤ 0x1000 →
    exec (.drw x y n) s = .next t →
    t.display = s.display ++
      (List.range n.val).flatMap fun r =>
        ((List.range 8).filter fun c => s.spriteBitAt r c).map fun c =>
          { x := ⟨((s.reg x).toNat + c) % 64, Nat.mod_lt _ (by decide)⟩
            y := ⟨((s.reg y).toNat + r) % 32, Nat.mod_lt _ (by decide)⟩
            lit := t.fb.getLsbD (spriteIndex (s.reg x) (s.reg y) r c) }

/-- Drawing a sprite twice at coordinates that are not taken from VF restores every pixel of the framebuffer, and the
second draw reports a collision exactly when some pixel under a 1 bit was unlit before the first (VF as a coordinate is
left out since the first draw changes it; 42_draw.md;
95_test_vectors.md S4; wrap is the spec's decision D4). -/
def Obligations.DrawingTwiceRestoresTheFramebuffer : Prop :=
  ∀ (x y : RegIdx) (n : RowCount) (s t u : State), x ≠ 15 → y ≠ 15 → n.val = 0 ∨ s.I.toNat + n.val ≤ 0x1000 →
    exec (.drw x y n) s = .next t → exec (.drw x y n) t = .next u →
    u.fb = s.fb ∧
    (u.reg 15 = 0x01 ↔ ∃ r c, r < n.val ∧ c < 8 ∧ s.spriteBitAt r c = true ∧
      s.fb.getLsbD (spriteIndex (s.reg x) (s.reg y) r c) = false)

/-! ## Keys and the delay timer -/

/-- Skip unless a key is pressed and its code equals the whole register (43_key_timer.md; the 8-bit comparison is the
spec's decision D17). -/
def Obligations.SkipIfKeyNotPressedComparesTheLatch : Prop :=
  ∀ (x : RegIdx) (s : State),
    exec (.sknp x) s = .next { s with
      pc := if s.keyPressed = true ∧ s.keyCode.toNat = (s.reg x).toNat then s.pc + 2 else s.pc + 4 }

/-- R131. -/
def Obligations.ReadDelayTimerKeepsTheTimer : Prop :=
  ∀ (x : RegIdx) (s : State),
    exec (.ldVxDt x) s = .next { s with V := s.V.set x.val s.DT, pc := s.pc + 2, DT := s.DT }

/-- A pressed key ends the wait with its code in the register; with none no state is written, `pc` neither
(43_key_timer.md; that any pressed key ends it is the spec's decision D18). -/
def Obligations.WaitForKeyTakesAPressedKeyOrRepeats : Prop :=
  ∀ (x : RegIdx) (s : State),
    (s.keyPressed = true → exec (.ldVxK x) s =
      .next { s with V := s.V.set x.val (s.keyCode.setWidth 8), pc := s.pc + 2 }) ∧
    (s.keyPressed = false → exec (.ldVxK x) s = .next s)

/-- R133: the write, and the count down to 0 that every later tick makes. -/
def Obligations.WriteDelayTimerStartsTheCountdown : Prop :=
  (∀ (x : RegIdx) (s : State), exec (.ldDtVx x) s = .next { s with DT := s.reg x, pc := s.pc + 2 }) ∧
  (∀ s t : State, s.run = .running → s.takeInput.1 = .tick → step s = .next t →
    t.DT.toNat = s.DT.toNat - 1)

/-! ## Address register and memory load -/

/-- The sum wraps modulo 65536 and VF is not written (44_index_memory.md; both are the spec's decision D10). -/
def Obligations.AddToAddressRegisterWraps : Prop :=
  ∀ (x : RegIdx) (s : State),
    exec (.addIVx x) s =
      .next { s with I := BitVec.ofNat 16 ((s.I.toNat + (s.reg x).toNat) % 65536), pc := s.pc + 2 }

/-- V0..Vx inclusive are loaded from `I` on, the registers above and everything else keep their values; a range that
leaves memory halts with no register written (44_index_memory.md; the inclusive bound with `I` unchanged is the spec's
decision D8, the whole-range check D9). -/
def Obligations.LoadRegistersFromMemoryInclusive : Prop :=
  ∀ (x : RegIdx) (s : State),
    (s.I.toNat + x.val ≤ 0x0FFF → ∃ t,
      exec (.ldVxMemi x) s = .next t ∧
      (∀ r : RegIdx, r ≤ x → t.reg r = s.mem.read (s.I.toNat + r.val)) ∧
      (∀ r : RegIdx, x < r → t.reg r = s.reg r) ∧
      t = { s with pc := s.pc + 2, V := t.V }) ∧
    (0x0FFF < s.I.toNat + x.val → exec (.ldVxMemi x) s = .next { s with
      run := .halted
      haltCause := .outOfBoundsAccess
      haltOpcode := 0xF#4 ++ BitVec.ofFin (w := 4) x ++ 0x65#8 })

/-! ## Unknown words, and what every instruction does -/

/-- R161: the word is recorded and `pc` still addresses it. -/
def Obligations.UnknownWordHaltsWithItsOpcode : Prop :=
  ∀ (w : Word) (s : State), ∃ t,
    exec (.unknown w) s = .next t ∧
    t = { s with run := .halted, haltCause := .unknownOpcode, haltOpcode := w } ∧ t.pc = s.pc

/-- Every instruction answers a next state in every state; it halts exactly on the fault the spec's table gives it
there, and then writes the halt record and nothing else (60_exceptions.md sections 1 and 3; the codes are the spec's
decision D20, precision D21). -/
def Obligations.InstructionsHaltExactlyOnTheirFault : Prop :=
  ∀ (i : Instr) (s : State),
    (∀ c, faultOf i s = some c →
      exec i s = .next { s with run := .halted, haltCause := c, haltOpcode := encode i }) ∧
    (faultOf i s = none → ∃ t, exec i s = .next t ∧
      t.run = s.run ∧ t.haltCause = s.haltCause ∧ t.haltOpcode = s.haltOpcode)

/-- R27: where each instruction leaves `pc`; on a fault it keeps it. -/
def Obligations.EveryInstructionLeavesThePcItsRuleGives : Prop :=
  ∀ (i : Instr) (s t : State), exec i s = .next t →
    t.pc = if faultOf i s = none then pcAfter i s else s.pc

/-- No register outside an instruction's write set changes (10_state.md section 2), nor on a tick or a key refresh. -/
def Obligations.OnlyNamedRegistersAreWritten : Prop :=
  (∀ (i : Instr) (s t : State) (r : RegIdx), exec i s = .next t → i.writesReg r = false → t.reg r = s.reg r) ∧
  (∀ (s : State) (r : RegIdx), s.tick.reg r = s.reg r) ∧
  (∀ (s : State) (k : KeySample) (r : RegIdx), (s.refreshKey k).reg r = s.reg r)

/-- A register outside an instruction's read set has no influence: give it another value, and everything else comes
out the same, the register itself either overwritten alike or still holding what it was given (10_state.md
section 2). -/
def Obligations.OnlyNamedRegistersAreRead : Prop :=
  ∀ (i : Instr) (s t t' : State) (r : RegIdx) (v : Byte), i.readsReg r = false →
    exec i s = .next t → exec i (s.setReg r v) = .next t' →
    { t' with V := t.V } = t ∧
    (∀ q : RegIdx, q ≠ r → t'.reg q = t.reg q) ∧
    (t'.reg r = t.reg r ∨ (t'.reg r = v ∧ t.reg r = s.reg r))

/-- The frame of every instruction outside the general registers and `pc` (10_state.md section 1, the column 'written
by'): which instruction may change I, DT, the pixels, the output and the stack; the run state and the halt record change
only where the fault table gives a fault; no instruction changes ST, the key latch, an input or any byte of memory. -/
def Obligations.SpecialStateIsWrittenOnlyByItsInstructions : Prop :=
  ∀ (i : Instr) (s t : State), exec i s = .next t →
    ((∀ nnn, i ≠ .ldINnn nnn) → (∀ x, i ≠ .addIVx x) → t.I = s.I) ∧
    ((∀ x, i ≠ .ldDtVx x) → t.DT = s.DT) ∧
    ((∀ x y n, i ≠ .drw x y n) → t.fb = s.fb ∧ t.display = s.display) ∧
    ((∀ nnn, i ≠ .call nnn) → t.stack = s.stack ∧ (i ≠ .ret → t.sp = s.sp)) ∧
    (faultOf i s = none → t.run = s.run ∧ t.haltCause = s.haltCause ∧ t.haltOpcode = s.haltOpcode) ∧
    t.ST = s.ST ∧ t.keyCode = s.keyCode ∧ t.keyPressed = s.keyPressed ∧
    t.pending = s.pending ∧ t.drawn = s.drawn ∧ (∀ a, t.mem.read a = s.mem.read a)

/-- R32: the count of live entries, its legal values, its writers, its reset value. -/
def Obligations.StackCountIsWrittenByCallAndReturnOnly : Prop :=
  State.reset.sp.val = 0 ∧
  (∀ s : State, s.sp.val ≤ 15 ∧ s.liveStack.length = s.sp.val) ∧
  (∀ s : State, s.tick.sp = s.sp) ∧
  (∀ (i : Instr) (s t : State), exec i s = .next t →
    t.sp = s.sp ∨
    (∃ nnn, i = .call nnn ∧ t.sp.val = s.sp.val + 1) ∨
    (i = .ret ∧ t.sp.val + 1 = s.sp.val))

/-- Only the draw and the register load depend on the bytes of memory once fetched: any other instruction does the same
over any other memory, so a skip does not look at what it passes over (20_memory.md section 3; 40_flow.md 'What a skip
skips'). -/
def Obligations.OtherInstructionsDoNotReadMemory : Prop :=
  ∀ (i : Instr) (s t : State) (m : Memory), i.readsMem = false → exec i s = .next t →
    exec i { s with mem := m } = .next { t with mem := m }

/-- The slots above the count are not live: no instruction's effect depends on what one holds (10_state.md section 6;
the spec's decision D14). -/
def Obligations.DeadStackSlotsHaveNoInfluence : Prop :=
  ∀ (i : Instr) (s t t' : State) (j : Fin 15) (v : Word), s.sp.val ≤ j.val →
    exec i s = .next t → exec i { s with stack := s.stack.set j.val v } = .next t' →
    { t' with stack := t.stack } = t ∧
    (∀ m : Fin 15, m ≠ j → t'.stack.get m = t.stack.get m)

/-! ## Steps -/

/-- When the two bytes at a fetchable `pc` decode to an instruction, the step of a Running machine whose input is a
cycle that does not quit is that instruction's execution, on the state with the input taken and the key latch
refreshed (70_reset_and_hazards.md section 2; the order is the spec's decision D15, the byte order D1). -/
def Obligations.StepRunsTheDecodedInstruction : Prop :=
  ∀ (s : State) (i : Instr), s.run = .running → s.pc.toNat ≤ 0x0FFE → s.pc.toNat % 2 = 0 →
    decodeBytes [s.mem.read s.pc.toNat, s.mem.read (s.pc.toNat + 1)] = .ok (i, []) →
    (s.takeInput.1 = .cycle .noKey → step s = exec i { s.takeInput.2 with keyPressed := false }) ∧
    (∀ c, s.takeInput.1 = .cycle (.key c) →
      step s = exec i { s.takeInput.2 with keyCode := c, keyPressed := true })

/-- A cycle that cannot fetch halts: past 0x0FFE with OutOfBoundsAccess, else at an odd address with MisalignedFetch,
opcode 0 in both, after the key refresh (70_reset_and_hazards.md section 2; the spec's decisions D2 and D3). -/
def Obligations.UnfetchablePcHalts : Prop :=
  ∀ (s : State) (k : KeySample), s.run = .running → s.takeInput.1 = .cycle k → k ≠ .quit →
    (0x0FFE < s.pc.toNat → step s = .next { s.takeInput.2.refreshKey k with
      run := .halted, haltCause := .outOfBoundsAccess, haltOpcode := 0#16 }) ∧
    (s.pc.toNat ≤ 0x0FFE → s.pc.toNat % 2 = 1 → step s = .next { s.takeInput.2.refreshKey k with
      run := .halted, haltCause := .misalignedFetch, haltOpcode := 0#16 })

/-- R166: quit writes the halt record and nothing else, whatever `pc` is, and it is the successful exit. -/
def Obligations.QuitHaltsBeforeAnythingElse : Prop :=
  ∀ s : State, s.run = .running → s.takeInput.1 = .cycle .quit → ∃ t,
    step s = .next t ∧
    t = { s with
      run := .halted, haltCause := .quit, haltOpcode := 0x0000#16, pending := t.pending, drawn := t.drawn } ∧
    t.haltCause.code = 1 ∧ t.exitSuccess = some true

/-- A tick counts each timer down to 0 and writes nothing else (60_exceptions.md section 6; stopping at 0 is the spec's
decision D12). -/
def Obligations.TickCountsTheTimersDown : Prop :=
  ∀ s : State, s.run = .running → s.takeInput.1 = .tick →
    step s = .next { s.takeInput.2 with
      DT := BitVec.ofNat 8 (s.DT.toNat - 1)
      ST := BitVec.ofNat 8 (s.ST.toNat - 1) }

/-- Running at reset; both steps only while Running, and always then; Halted entered on the quit input and on every
fatal condition and on nothing else; no step leaves it, a reset does (10_state.md section 5, `run`). That a step in Halted
is the fault `haltedNoStep` is the model's form for "no step is enabled" (log entry 6, DEDUCED); the halt at an odd `pc`
is the spec's decision D2. -/
def Obligations.RunningToHaltedIsTheOnlyTransition : Prop :=
  State.reset.run = .running ∧
  (∀ s : State, s.run = .halted → step s = .fault .haltedNoStep) ∧
  (∀ s : State, s.run = .running → ∃ t, step s = .next t ∧ (t.run = .halted ↔ s.stepHalts)) ∧
  (∀ m : Memory, (State.resetWith m).run = .running)

/-- R10: a cycle of a Running machine ends in one of four ways, and in no other. -/
def Obligations.CycleEndsInOneOfFourWays : Prop :=
  ∀ (s : State) (k : KeySample), s.run = .running → s.takeInput.1 = .cycle k → ∃ t,
    step s = .next t ∧
    ((k = .quit ∧ t.run = .halted ∧ t.haltCause = .quit ∧ t.pc = s.pc) ∨
     (k ≠ .quit ∧ t.run = .halted ∧ t.haltCause ≠ .none ∧ t.haltCause ≠ .quit ∧ t.pc = s.pc) ∨
     (k ≠ .quit ∧ t.run = .running ∧ s.fetchable ∧ (∃ x, decode s.wordAtPc = .ldVxK x) ∧ k = .noKey ∧
        t = s.takeInput.2.refreshKey k) ∨
     (k ≠ .quit ∧ t.run = .running ∧ s.fetchable ∧ ¬((∃ x, decode s.wordAtPc = .ldVxK x) ∧ k = .noKey) ∧
        t.pc = pcAfter (decode s.wordAtPc) (s.takeInput.2.refreshKey k)))

/-- No step writes a byte of memory (20_memory.md section 3). -/
def Obligations.NoStepWritesMemory : Prop :=
  ∀ s t : State, step s = .next t → t.mem = s.mem ∧ ∀ a, t.mem.read a = s.mem.read a

/-- The delay timer changes in two ways only: a tick takes 1 from it, or a Fx15 at `pc` loads it (60_exceptions.md
section 6; the spec's decision D12). -/
def Obligations.DelayTimerChangesByTickOrLoadOnly : Prop :=
  ∀ s t : State, step s = .next t → t.DT ≠ s.DT →
    (s.takeInput.1 = .tick ∧ t.DT.toNat + 1 = s.DT.toNat) ∨
    (s.fetchable ∧ ∃ x, decode s.wordAtPc = .ldDtVx x ∧ t.DT = s.reg x)

/-- What the latch holds from earlier cycles has no influence on a cycle: only the key code itself, which a cycle
without a key keeps, can differ afterwards (10_state.md section 5; the spec's decision D16). -/
def Obligations.KeyLatchIsAnInputOfItsCycle : Prop :=
  ∀ (s t t' : State) (k : KeySample) (c : KeyCode) (p : Bool), s.takeInput.1 = .cycle k → k ≠ .quit →
    step s = .next t → step { s with keyCode := c, keyPressed := p } = .next t' →
    { t' with keyCode := t.keyCode } = t ∧ (k ≠ .noKey → t'.keyCode = t.keyCode)

/-- The instruction that withFetchWord places is the one the next step runs, with no key in its cycle (the model's own,
log entry 4). -/
def Obligations.PlacedWordRunsNext : Prop :=
  ∀ (s : State) (w : Nat), s.run = .running → s.pc.toNat ≤ 0x0FFE → s.pc.toNat % 2 = 0 → s.mem.wf = true →
    step (s.withFetchWord 16 w) = exec (decode (BitVec.ofNat 16 w))
      { s.withFetchWord 16 w with pending := s.pending, keyPressed := false }

/-! ## Reset, launch and the host -/

/-- R23. -/
def Obligations.RegistersAreZeroAfterReset : Prop :=
  ∀ (m : Memory) (x : RegIdx), (State.resetWith m).reg x = 0x00 ∧ State.reset.reg x = 0x00

/-- Reset over any contents of memory leaves the values of 10_state.md section 10; its zero for I and the latch are the
spec's decisions D23 and D16, the halt record's D20, memory's contents are left open by D22 and are the argument. -/
def Obligations.ResetLeavesTheStateOfTheTable : Prop :=
  ∀ m : Memory,
    (∀ x : RegIdx, (State.resetWith m).reg x = 0) ∧ (∀ j : Fin 15, (State.resetWith m).stack.get j = 0) ∧
    (∀ j, (State.resetWith m).fb.getLsbD j = false) ∧ (State.resetWith m).I = 0 ∧ (State.resetWith m).DT = 0 ∧
    (State.resetWith m).ST = 0 ∧ (State.resetWith m).sp = 0 ∧ (State.resetWith m).pc = 0x0200 ∧
    (State.resetWith m).keyCode = 0 ∧ (State.resetWith m).keyPressed = false ∧ (State.resetWith m).run = .running ∧
    (State.resetWith m).haltCause = .none ∧ (State.resetWith m).haltOpcode = 0 ∧ (State.resetWith m).mem = m

/-- Which sources load, and what the load writes over a memory in canonical form (70_reset_and_hazards.md section 1). The
three names of the failure, and `none` for an unreadable source, are the model's choice (log entry 16, DESIGN CHOICE). -/
def Obligations.LoaderCopiesTheImageTo0x200 : Prop :=
  (∀ s : State, s.load none = .error .unreadable) ∧
  (∀ s : State, s.load (some []) = .error .empty) ∧
  (∀ (s : State) (b : List Byte), 4096 - 0x200 < b.length → s.load (some b) = .error .oversized) ∧
  (∀ (s : State) (b : List Byte), s.mem.wf = true → 1 ≤ b.length → b.length ≤ 3584 → ∃ t,
    s.load (some b) = .ok t ∧
    (∀ (i : Nat) (h : i < b.length), t.mem.read (0x200 + i) = b[i]) ∧
    (∀ a, a < 0x200 ∨ 0x200 + b.length ≤ a → t.mem.read a = s.mem.read a) ∧
    t = { s with mem := t.mem })

/-- The launch states: none for an empty or oversized image, else the reset state over the initial contents with the
image from 0x200, in canonical form (70_reset_and_hazards.md section 1; the spec's decision D23). -/
def Obligations.LaunchIsResetWithTheImage : Prop :=
  (∀ (m : Memory) (b : List Byte), launch m b = none ↔ b.length = 0 ∨ 3584 < b.length) ∧
  (∀ (m : Memory) (b : List Byte) (t : State), m.wf = true → launch m b = some t →
    t.mem.wf = true ∧ t = { State.reset with mem := t.mem } ∧
    (∀ a (h : 0x200 ≤ a ∧ a < 0x200 + b.length), t.mem.read a = b[a - 0x200]'(by omega)) ∧
    (∀ a, a < 0x200 ∨ 0x200 + b.length ≤ a → t.mem.read a = m.read a))

/-- What the host reads, and when, and the exit status (60_exceptions.md section 7): every item of 10_state.md section 1
but `run` itself, the stack both as its live entries and as its 15 slots. That the key latch, memory and the framebuffer
are shown is the model's choice (log entry 18, DESIGN CHOICE); the numbers of the causes are the spec's decision D20, and
one failed exit for every fault its decision D26 (log entry 13). -/
def Obligations.SnapshotShowsTheHaltedState : Prop :=
  (∀ s : State, s.run = .running → s.snapshot = none ∧ s.exitSuccess = none) ∧
  (∀ s : State, s.run = .halted → ∃ d,
    s.snapshot = some d ∧ d.V = s.V ∧ d.I = s.I ∧ d.pc = s.pc ∧ d.sp = s.sp ∧ d.DT = s.DT ∧ d.ST = s.ST ∧
    d.mem = s.mem ∧ d.fb = s.fb ∧ d.keyCode = s.keyCode ∧ d.keyPressed = s.keyPressed ∧
    d.haltCause = s.haltCause.code ∧ d.haltOpcode = s.haltOpcode ∧
    d.stack = s.stack ∧ d.stackContents.length = s.sp.val ∧
    (∀ (j : Nat) (h : j < 15), j < s.sp.val → d.stackContents[j]? = some s.stack[j]) ∧
    s.exitSuccess = some (decide (s.haltCause.code = 1)))

/-- The key table: digits, a to f, q, and no other symbol, upper case included (60_exceptions.md section 7; the last part
is the spec's decision D19). -/
def Obligations.KeyTableMapsItsSymbolsOnly : Prop :=
  (∀ n : Nat, n < 10 → keyOfSymbol (Char.ofNat (48 + n)) = .key (BitVec.ofNat 4 n)) ∧
  (∀ n : Nat, n < 6 → keyOfSymbol (Char.ofNat (97 + n)) = .key (BitVec.ofNat 4 (10 + n))) ∧
  keyOfSymbol 'q' = .quit ∧
  (∀ c : Char, ¬(48 ≤ c.toNat ∧ c.toNat ≤ 57) → ¬(97 ≤ c.toNat ∧ c.toNat ≤ 102) → c ≠ 'q' →
    keyOfSymbol c = .noKey)

/-! ## The invariant -/

/-- The invariant holds at reset, over any memory in canonical form. -/
def Obligations.ResetMeetsTheInvariant : Prop :=
  State.reset.Inv ∧ ∀ m : Memory, m.wf = true → (State.resetWith m).Inv

/-- Every step keeps the invariant: memory stays canonical, `pc` stays at most 0x1002, stack slots stay fetchable
addresses, the sound timer stays 0, and the halt record stays true of the snapshot (10_state.md sections 4 to 6;
60_exceptions.md sections 1 and 3). -/
def Obligations.EveryStepKeepsTheInvariant : Prop :=
  ∀ s t : State, s.Inv → step s = .next t → t.Inv
end

