-- ==== Sys2Proof/Laws/Decode.lean ====
section
/-! SUPPORT. The fields and the formats as arithmetic on the word's number (R72, R73): a field of a format is what the
format was given, and a word is determined by its fields. -/

namespace Sys2Proof

/-! ## Fields -/

theorem fieldF_eq (w : Word) : fieldF w = w.toNat / 4096 := by
  have := w.isLt
  simp only [fieldF, BitVec.extractLsb'_toNat, Nat.shiftRight_eq_div_pow]
  omega

theorem fieldX_val (w : Word) : (fieldX w).val = w.toNat / 256 % 16 := by
  change (w.extractLsb' 8 4).toNat = _
  rw [BitVec.extractLsb'_toNat, Nat.shiftRight_eq_div_pow]

theorem fieldY_val (w : Word) : (fieldY w).val = w.toNat / 16 % 16 := by
  change (w.extractLsb' 4 4).toNat = _
  rw [BitVec.extractLsb'_toNat, Nat.shiftRight_eq_div_pow]

theorem fieldN_val (w : Word) : (fieldN w).val = w.toNat % 16 := by
  change (w.extractLsb' 0 4).toNat = _
  rw [BitVec.extractLsb'_toNat, Nat.shiftRight_zero]

theorem fieldKk_toNat (w : Word) : (fieldKk w).toNat = w.toNat % 256 := by
  simp only [fieldKk, BitVec.extractLsb'_toNat, Nat.shiftRight_zero]

theorem fieldNnn_toNat (w : Word) : (fieldNnn w).toNat = w.toNat % 4096 := by
  simp only [fieldNnn, BitVec.extractLsb'_toNat, Nat.shiftRight_zero]

/-! ## Formats -/

theorem append_toNat {m n : Nat} (a : BitVec m) (b : BitVec n) : (a ++ b).toNat = a.toNat * 2 ^ n + b.toNat := by
  rw [BitVec.toNat_append, ← Nat.shiftLeft_add_eq_or_of_lt b.isLt, Nat.shiftLeft_eq]

theorem nibble_toNat (x : Fin 16) : (nibble x).toNat = x.val := rfl

theorem formatA_toNat (f : BitVec 4) (nnn : Addr12) : (formatA f nnn).toNat = f.toNat * 4096 + nnn.toNat :=
  append_toNat f nnn

theorem formatRI_toNat (f : BitVec 4) (x : RegIdx) (kk : Byte) :
    (formatRI f x kk).toNat = f.toNat * 4096 + x.val * 256 + kk.toNat := by
  have h : (formatRI f x kk).toNat = (f ++ nibble x).toNat * 2 ^ 8 + kk.toNat := append_toNat (f ++ nibble x) kk
  rw [h, append_toNat, nibble_toNat]; omega

theorem formatRRN_toNat (f : BitVec 4) (x y : RegIdx) (n : RowCount) :
    (formatRRN f x y n).toNat = f.toNat * 4096 + x.val * 256 + y.val * 16 + n.val := by
  have h : (formatRRN f x y n).toNat = (f ++ nibble x ++ nibble y).toNat * 2 ^ 4 + (nibble n).toNat :=
    append_toNat (f ++ nibble x ++ nibble y) (nibble n)
  rw [h, append_toNat, append_toNat, nibble_toNat, nibble_toNat, nibble_toNat]; omega

/-! ## The fields of a format -/

@[simp] theorem fieldF_formatA (f : BitVec 4) (nnn : Addr12) : fieldF (formatA f nnn) = f.toNat := by
  have := nnn.isLt
  rw [fieldF_eq, formatA_toNat]; omega

@[simp] theorem fieldNnn_formatA (f : BitVec 4) (nnn : Addr12) : fieldNnn (formatA f nnn) = nnn := by
  apply BitVec.eq_of_toNat_eq
  have := nnn.isLt
  rw [fieldNnn_toNat, formatA_toNat]; omega

@[simp] theorem fieldF_formatRI (f : BitVec 4) (x : RegIdx) (kk : Byte) : fieldF (formatRI f x kk) = f.toNat := by
  have := kk.isLt
  rw [fieldF_eq, formatRI_toNat]; omega

@[simp] theorem fieldX_formatRI (f : BitVec 4) (x : RegIdx) (kk : Byte) : fieldX (formatRI f x kk) = x := by
  apply Fin.ext
  have := kk.isLt
  rw [fieldX_val, formatRI_toNat]; omega

@[simp] theorem fieldKk_formatRI (f : BitVec 4) (x : RegIdx) (kk : Byte) : fieldKk (formatRI f x kk) = kk := by
  apply BitVec.eq_of_toNat_eq
  have := kk.isLt
  rw [fieldKk_toNat, formatRI_toNat]; omega

@[simp] theorem fieldF_formatRRN (f : BitVec 4) (x y : RegIdx) (n : RowCount) :
    fieldF (formatRRN f x y n) = f.toNat := by
  rw [fieldF_eq, formatRRN_toNat]; omega

@[simp] theorem fieldX_formatRRN (f : BitVec 4) (x y : RegIdx) (n : RowCount) : fieldX (formatRRN f x y n) = x := by
  apply Fin.ext
  rw [fieldX_val, formatRRN_toNat]; omega

@[simp] theorem fieldY_formatRRN (f : BitVec 4) (x y : RegIdx) (n : RowCount) : fieldY (formatRRN f x y n) = y := by
  apply Fin.ext
  rw [fieldY_val, formatRRN_toNat]; omega

@[simp] theorem fieldN_formatRRN (f : BitVec 4) (x y : RegIdx) (n : RowCount) : fieldN (formatRRN f x y n) = n := by
  apply Fin.ext
  rw [fieldN_val, formatRRN_toNat]; omega

/-! ## A word is its fields, and its bytes -/

theorem formatA_fields (w : Word) : formatA (w.extractLsb' 12 4) (fieldNnn w) = w := by
  apply BitVec.eq_of_toNat_eq
  rw [formatA_toNat, fieldNnn_toNat]
  change fieldF w * 4096 + _ = _
  rw [fieldF_eq]; omega

theorem formatRI_fields (w : Word) : formatRI (w.extractLsb' 12 4) (fieldX w) (fieldKk w) = w := by
  apply BitVec.eq_of_toNat_eq
  rw [formatRI_toNat, fieldX_val, fieldKk_toNat]
  change fieldF w * 4096 + _ + _ = _
  rw [fieldF_eq]; omega

theorem formatRRN_fields (w : Word) : formatRRN (w.extractLsb' 12 4) (fieldX w) (fieldY w) (fieldN w) = w := by
  apply BitVec.eq_of_toNat_eq
  rw [formatRRN_toNat, fieldX_val, fieldY_val, fieldN_val]
  change fieldF w * 4096 + _ + _ + _ = _
  rw [fieldF_eq]; omega

theorem wordOfBytes_bytesOfWord (w : Word) : wordOfBytes (w.extractLsb' 8 8) (w.extractLsb' 0 8) = w := by
  have h : (wordOfBytes (w.extractLsb' 8 8) (w.extractLsb' 0 8)).toNat =
      (w.extractLsb' 8 8).toNat * 2 ^ 8 + (w.extractLsb' 0 8).toNat := append_toNat _ _
  apply BitVec.eq_of_toNat_eq
  have := w.isLt
  rw [h, BitVec.extractLsb'_toNat, BitVec.extractLsb'_toNat, Nat.shiftRight_eq_div_pow, Nat.shiftRight_zero]; omega

/-! ## The masks of the opcode table -/

/-- A mask that keeps the family nibble and the low `k` bits. -/
theorem and_family_low (w : Word) (m : Word) (k : Nat) (hk : k ≤ 12) (hm : m.toNat = 0xF000 + (2 ^ k - 1)) :
    (w &&& m).toNat = fieldF w * 4096 + w.toNat % 2 ^ k := by
  have hpow : 2 ^ k ≤ 2 ^ 12 := Nat.pow_le_pow_right (by decide) hk
  have hpos : 0 < 2 ^ k := Nat.two_pow_pos k
  have hmod : (0xF000 + (2 ^ k - 1)) % 2 ^ 12 = 2 ^ k - 1 := by omega
  have hdiv : (0xF000 + (2 ^ k - 1)) / 2 ^ 12 = 2 ^ 4 - 1 := by omega
  have h1 : (w.toNat &&& m.toNat) / 2 ^ 12 = fieldF w := by
    rw [hm, Nat.and_div_two_pow, hdiv, Nat.and_two_pow_sub_one_eq_mod, fieldF_eq]
    have := w.isLt
    omega
  have h2 : (w.toNat &&& m.toNat) % 2 ^ 12 = w.toNat % 2 ^ k := by
    rw [hm, Nat.and_mod_two_pow, hmod, Nat.and_two_pow_sub_one_eq_mod,
      Nat.mod_mod_of_dvd _ (Nat.pow_dvd_pow 2 hk)]
  rw [BitVec.toNat_and]
  omega

theorem and_F000 (w : Word) : (w &&& 0xF000#16).toNat = fieldF w * 4096 := by
  rw [and_family_low w 0xF000#16 0 (by omega) rfl, Nat.pow_zero, Nat.mod_one, Nat.add_zero]

theorem and_F00F (w : Word) : (w &&& 0xF00F#16).toNat = fieldF w * 4096 + (fieldN w).val := by
  rw [fieldN_val]; exact and_family_low w 0xF00F#16 4 (by omega) rfl

theorem and_F0FF (w : Word) : (w &&& 0xF0FF#16).toNat = fieldF w * 4096 + (fieldKk w).toNat := by
  rw [fieldKk_toNat]; exact and_family_low w 0xF0FF#16 8 (by omega) rfl

theorem and_000F (w : Word) : (w &&& 0x000F#16).toNat = (fieldN w).val := by
  rw [fieldN_val, BitVec.toNat_and, show (0x000F#16).toNat = 2 ^ 4 - 1 from rfl, Nat.and_two_pow_sub_one_eq_mod]

end Sys2Proof
end

