-- ==== Sys2Proof/Laws/Draw.lean ====
section
/-! SUPPORT. What the pixel-flip logic does, said once: a sprite is a list of pixels that land on different places, and
drawing them flips those under a 1 bit, notes whether one was lit, and emits their new states in order. -/

namespace Sys2Proof.Machine

/-- A pixel of the sprite: where it lands, and its bit. -/
abbrev SpritePixel := Fin 64 × Fin 32 × Bool

/-- Draw pixels one after another. -/
def Drawing.drawPixels (d : Drawing) (l : List SpritePixel) : Drawing :=
  l.foldl (fun d p => d.drawBit p.1 p.2.1 p.2.2) d

/-- The pixels of the rows, the first being row `r`. -/
def spritePixelsFrom (x0 y0 : Byte) (r : Nat) : List Byte → List SpritePixel
  | [] => []
  | row :: rows =>
    (List.range 8).map (fun c => (pixelColumn x0 c, pixelRow y0 r, spriteBit row c)) ++
      spritePixelsFrom x0 y0 (r + 1) rows

theorem Drawing.drawRow_eq (d : Drawing) (x0 : Byte) (py : Fin 32) (row : Byte) :
    d.drawRow x0 py row = d.drawPixels ((List.range 8).map fun c => (pixelColumn x0 c, py, spriteBit row c)) := by
  simp only [Drawing.drawRow, Drawing.drawPixels, List.foldl_map]

theorem Drawing.drawRowsFrom_eq (d : Drawing) (x0 y0 : Byte) (r : Nat) (rows : List Byte) :
    d.drawRowsFrom x0 y0 r rows = d.drawPixels (spritePixelsFrom x0 y0 r rows) := by
  induction rows generalizing d r with
  | nil => rfl
  | cons row rows ih =>
    rw [Drawing.drawRowsFrom, ih, Drawing.drawRow_eq, spritePixelsFrom]
    simp only [Drawing.drawPixels, List.foldl_append]

theorem pixelIndex_inj {a c : Fin 64} {b d : Fin 32} (h : pixelIndex a b = pixelIndex c d) : a = c ∧ b = d := by
  simp only [pixelIndex] at h
  exact ⟨Fin.ext (by omega), Fin.ext (by omega)⟩

theorem Framebuffer.getLsbD_flip (fb : Framebuffer) (a : Fin 64) (b : Fin 32) (j : Nat) :
    (Framebuffer.flip fb (pixelIndex a b)).getLsbD j = (fb.getLsbD j ^^ decide (pixelIndex a b = j)) := by
  have : pixelIndex a b < 2048 := by simp only [pixelIndex]; omega
  simp only [Framebuffer.flip, BitVec.getLsbD_xor, BitVec.getLsbD_twoPow, this, decide_true, Bool.true_and]

/-- All that drawing pixels does, when no two land on the same place. -/
theorem Drawing.drawPixels_spec (d : Drawing) (l : List SpritePixel)
    (hl : l.Pairwise fun p q => pixelIndex p.1 p.2.1 ≠ pixelIndex q.1 q.2.1) :
    (∀ j, (d.drawPixels l).fb.getLsbD j =
      (d.fb.getLsbD j ^^ l.any fun p => p.2.2 && decide (pixelIndex p.1 p.2.1 = j))) ∧
    (d.drawPixels l).collision =
      (d.collision || l.any fun p => p.2.2 && d.fb.getLsbD (pixelIndex p.1 p.2.1)) ∧
    (d.drawPixels l).events = d.events ++
      (l.filter (·.2.2)).map fun p => ⟨p.1, p.2.1, !d.fb.getLsbD (pixelIndex p.1 p.2.1)⟩ := by
  induction l generalizing d with
  | nil => simp [Drawing.drawPixels]
  | cons p l ih =>
    obtain ⟨a, b, bit⟩ := p
    obtain ⟨hp, hl'⟩ := List.pairwise_cons.1 hl
    obtain ⟨h1, h2, h3⟩ := ih (d.drawBit a b bit) hl'
    have e : d.drawPixels ((a, b, bit) :: l) = (d.drawBit a b bit).drawPixels l := rfl
    rw [e]
    cases bit with
    | false =>
      have e' : d.drawBit a b false = d := rfl
      simp only [e'] at h1 h2 h3 ⊢
      exact ⟨fun j => by simp [h1 j], by simp [h2], by simp [h3]⟩
    | true =>
      have e' : d.drawBit a b true = d.flipPixel a b := rfl
      have hfb : (d.flipPixel a b).fb = Framebuffer.flip d.fb (pixelIndex a b) := rfl
      simp only [e', hfb, Framebuffer.getLsbD_flip] at h1 h2 h3 ⊢
      refine ⟨fun j => ?_, ?_, ?_⟩
      · rw [h1 j, List.any_cons]
        by_cases hj : pixelIndex a b = j
        · have : (l.any fun p => p.2.2 && decide (pixelIndex p.1 p.2.1 = j)) = false := by
            rw [List.any_eq_false]
            intro q hq
            have := hp q hq
            simp only [← hj]
            simp [Ne.symm this]
          rw [this]; simp [hj]
        · simp [hj]
      · rw [h2]
        have : (l.any fun p => p.2.2 && (d.fb.getLsbD (pixelIndex p.1 p.2.1) ^^
            decide (pixelIndex a b = pixelIndex p.1 p.2.1))) =
            l.any fun p => p.2.2 && d.fb.getLsbD (pixelIndex p.1 p.2.1) := by
          rw [Bool.eq_iff_iff, List.any_eq_true, List.any_eq_true]
          exact exists_congr fun q => and_congr_right fun hq => by simp [hp q hq]
        rw [this]
        simp [Drawing.flipPixel, collides, Bool.or_assoc]
      · rw [h3]
        have : ((l.filter (·.2.2)).map fun p => (⟨p.1, p.2.1, !(d.fb.getLsbD (pixelIndex p.1 p.2.1) ^^
            decide (pixelIndex a b = pixelIndex p.1 p.2.1))⟩ : PixelEvent)) =
            (l.filter (·.2.2)).map fun p => ⟨p.1, p.2.1, !d.fb.getLsbD (pixelIndex p.1 p.2.1)⟩ := by
          refine List.map_congr_left fun q hq => ?_
          simp [hp q (List.mem_of_mem_filter hq)]
        rw [this]
        simp [Drawing.flipPixel]

/-- The pixels of a sprite of fewer than 32 rows land on different places (R127). -/
theorem spritePixelsFrom_pairwise (x0 y0 : Byte) (r : Nat) (rows : List Byte) (h : rows.length < 32) :
    (spritePixelsFrom x0 y0 r rows).Pairwise fun p q => pixelIndex p.1 p.2.1 ≠ pixelIndex q.1 q.2.1 := by
  have rowOf : ∀ (rows : List Byte) (r : Nat) (p : SpritePixel), p ∈ spritePixelsFrom x0 y0 r rows →
      ∃ k, r ≤ k ∧ k < r + rows.length ∧ p.2.1 = pixelRow y0 k := by
    intro rows
    induction rows with
    | nil => simp [spritePixelsFrom]
    | cons row rows ih =>
      intro r p hp
      rw [spritePixelsFrom, List.mem_append] at hp
      rcases hp with hp | hp
      · obtain ⟨c, _, rfl⟩ := List.mem_map.1 hp
        exact ⟨r, by omega, by simp, rfl⟩
      · obtain ⟨k, h1, h2, h3⟩ := ih (r + 1) p hp
        exact ⟨k, by omega, by rw [List.length_cons]; omega, h3⟩
  induction rows generalizing r with
  | nil => exact List.Pairwise.nil
  | cons row rows ih =>
    rw [List.length_cons] at h
    rw [spritePixelsFrom, List.pairwise_append]
    refine ⟨?_, ih (r + 1) (by omega), ?_⟩
    · rw [List.pairwise_map]
      refine List.Pairwise.imp_of_mem (R := fun a b => a < b) ?_ List.pairwise_lt_range
      intro a b ha hb hab e
      have := (pixelIndex_inj e).1
      simp only [pixelColumn, Fin.mk.injEq] at this
      simp only [List.mem_range] at ha hb
      omega
    · intro p hp q hq e
      obtain ⟨c, _, rfl⟩ := List.mem_map.1 hp
      obtain ⟨k, h1, h2, h3⟩ := rowOf rows (r + 1) q hq
      have := (pixelIndex_inj e).2
      rw [h3] at this
      simp only [pixelRow, Fin.mk.injEq] at this
      omega

/-- The pixels of a sprite, by row and column. -/
theorem mem_spritePixelsFrom {x0 y0 : Byte} {r : Nat} {rows : List Byte} {p : SpritePixel} :
    p ∈ spritePixelsFrom x0 y0 r rows ↔
      ∃ (k c : Nat) (hk : k < rows.length), c < 8 ∧
        p = (pixelColumn x0 c, pixelRow y0 (r + k), spriteBit rows[k] c) := by
  induction rows generalizing r with
  | nil => simp [spritePixelsFrom]
  | cons row rows ih =>
    rw [spritePixelsFrom, List.mem_append, ih]
    constructor
    · rintro (hp | ⟨k, c, hk, hc, rfl⟩)
      · obtain ⟨c, hc, rfl⟩ := List.mem_map.1 hp
        exact ⟨0, c, by simp, List.mem_range.1 hc, rfl⟩
      · exact ⟨k + 1, c, by simpa using hk, hc, by simp [Nat.add_comm 1, Nat.add_assoc]⟩
    · rintro ⟨k, c, hk, hc, rfl⟩
      cases k with
      | zero => exact .inl (List.mem_map.2 ⟨c, List.mem_range.2 hc, rfl⟩)
      | succ k => exact .inr ⟨k, c, by simpa using hk, hc, by simp [Nat.add_comm 1, Nat.add_assoc]⟩

/-- All that a sprite draw does. -/
theorem drawSprite_spec (fb : Framebuffer) (x0 y0 : Byte) (rows : List Byte) (h : rows.length < 32) :
    (∀ j, (drawSprite fb x0 y0 rows).fb.getLsbD j =
      (fb.getLsbD j ^^ (spritePixelsFrom x0 y0 0 rows).any fun p => p.2.2 && decide (pixelIndex p.1 p.2.1 = j))) ∧
    (drawSprite fb x0 y0 rows).collision =
      ((spritePixelsFrom x0 y0 0 rows).any fun p => p.2.2 && fb.getLsbD (pixelIndex p.1 p.2.1)) ∧
    (drawSprite fb x0 y0 rows).events =
      ((spritePixelsFrom x0 y0 0 rows).filter (·.2.2)).map
        fun p => ⟨p.1, p.2.1, !fb.getLsbD (pixelIndex p.1 p.2.1)⟩ := by
  have := Drawing.drawPixels_spec ⟨fb, false, []⟩ _ (spritePixelsFrom_pairwise x0 y0 0 rows h)
  simpa [drawSprite, Drawing.drawRowsFrom_eq] using this

end Sys2Proof.Machine
end

