-- ==== Sys2Proof/Laws/Memory.lean ====
section
/-! SUPPORT. The laws of memory: the canonical form is kept by every operation, a read after a write gives what was
written, and equal contents are equal data. -/

namespace Sys2Proof.Machine

/-! ## The canonical form -/

theorem Memory.wfFrom_cons {lo a : Nat} {b : Byte} {m : Memory} :
    Memory.wfFrom lo ((a, b) :: m) = true ↔
      lo ≤ a ∧ a < Config.memSize ∧ b ≠ Memory.unlistedByte ∧ Memory.wfFrom (a + 1) m = true := by
  simp [Memory.wfFrom, and_assoc]

theorem Memory.wfFrom_mono {lo lo' : Nat} {m : Memory} (h : Memory.wfFrom lo m = true) (hl : lo' ≤ lo) :
    Memory.wfFrom lo' m = true := by
  cases m with
  | nil => rfl
  | cons c m => rw [Memory.wfFrom_cons] at h ⊢; exact ⟨hl.trans h.1, h.2⟩

theorem Memory.wf_nil : Memory.wf [] = true := rfl

theorem Memory.wfFrom_consCell {lo a : Nat} {b : Byte} {m : Memory} (hlo : lo ≤ a) (ha : a < Config.memSize)
    (h : Memory.wfFrom (a + 1) m = true) : Memory.wfFrom lo (Memory.consCell a b m) = true := by
  unfold Memory.consCell
  split
  · exact Memory.wfFrom_mono h (by omega)
  · exact Memory.wfFrom_cons.2 ⟨hlo, ha, ‹_›, h⟩

theorem Memory.wfFrom_write {lo x : Nat} {v : Byte} {m : Memory} (h : Memory.wfFrom lo m = true) (hlo : lo ≤ x)
    (hx : x < Config.memSize) : Memory.wfFrom lo (m.write x v) = true := by
  induction m generalizing lo with
  | nil => exact Memory.wfFrom_consCell hlo hx rfl
  | cons c m ih =>
    obtain ⟨a, b⟩ := c
    obtain ⟨h1, h2, h3, h4⟩ := Memory.wfFrom_cons.1 h
    simp only [Memory.write]
    split
    · exact Memory.wfFrom_consCell hlo hx (Memory.wfFrom_cons.2 ⟨by omega, h2, h3, h4⟩)
    · split
      · subst x; exact Memory.wfFrom_consCell hlo hx h4
      · exact Memory.wfFrom_cons.2 ⟨h1, h2, h3, ih h4 (by omega)⟩

/-- Writing a byte of memory keeps the canonical form. -/
theorem Memory.wf_write {x : Nat} {v : Byte} {m : Memory} (h : m.wf = true) (hx : x < Config.memSize) :
    (m.write x v).wf = true :=
  Memory.wfFrom_write h (Nat.zero_le _) hx

/-- Writing a run of bytes that ends inside memory keeps the canonical form. -/
theorem Memory.wf_writeFrom {addr : Nat} {bs : List Byte} {m : Memory} (h : m.wf = true)
    (hb : addr + bs.length ≤ Config.memSize) : (m.writeFrom addr bs).wf = true := by
  induction bs generalizing m addr with
  | nil => exact h
  | cons b bs ih =>
    rw [List.length_cons] at hb
    exact ih (Memory.wf_write h (by omega)) (by omega)

/-- `MemWrite` keeps the canonical form. -/
theorem memWrite_wf {s t : State} {addr : Nat} {v : List Byte} (hs : s.mem.wf = true)
    (h : memWrite s addr v = some t) : t.mem.wf = true := by
  unfold memWrite at h
  split at h
  · rename_i hb
    cases h
    cases v with
    | nil => exact hs
    | cons b bs => exact Memory.wf_writeFrom hs (by simpa [inBounds] using hb)
  · cases h

/-- The Loader keeps the canonical form. -/
theorem State.load_wf {s t : State} {src : Option (List Byte)} (hs : s.mem.wf = true) (h : s.load src = .ok t) :
    t.mem.wf = true := by
  unfold State.load at h
  split at h
  · cases h
  · split at h
    · cases h
    · split at h
      · cases h
      · cases h; exact Memory.wf_writeFrom hs (by simp only [Config.maxImage, Config.origin, Config.memSize] at *; omega)

/-- Placing the next instruction keeps the canonical form. -/
theorem State.placeWord_wf {s : State} (w : Word) (hs : s.mem.wf = true) : (s.placeWord w).mem.wf = true := by
  unfold State.placeWord
  cases h : memWrite s s.pc.toNat (bytesOfWord w) with
  | none => exact hs
  | some t => exact (memWrite_wf hs h : t.mem.wf = true)

/-! ## Reading -/

/-- Below the first address of the form nothing is listed. -/
theorem Memory.read_below {lo x : Nat} {m : Memory} (h : Memory.wfFrom lo m = true) (hx : x < lo) :
    m.read x = Memory.unlistedByte := by
  induction m generalizing lo with
  | nil => rfl
  | cons c m ih =>
    obtain ⟨a, b⟩ := c
    obtain ⟨h1, _, _, h4⟩ := Memory.wfFrom_cons.1 h
    rw [Memory.read, if_neg (by omega), ih h4 (by omega)]

theorem Memory.read_consCell {a y : Nat} {b : Byte} {m : Memory} (h : Memory.wfFrom (a + 1) m = true) :
    (Memory.consCell a b m).read y = if y = a then b else m.read y := by
  unfold Memory.consCell
  by_cases hy : y = a
  · subst hy
    by_cases hb : b = Memory.unlistedByte
    · rw [if_pos hb, if_pos rfl, Memory.read_below h (by omega), hb]
    · rw [if_neg hb, if_pos rfl, Memory.read, if_pos rfl]
  · by_cases hb : b = Memory.unlistedByte
    · rw [if_pos hb, if_neg hy]
    · rw [if_neg hb, if_neg hy, Memory.read, if_neg (Ne.symm hy)]

theorem Memory.read_writeAt {lo x y : Nat} {v : Byte} {m : Memory} (h : Memory.wfFrom lo m = true) :
    (m.write x v).read y = if y = x then v else m.read y := by
  induction m generalizing lo with
  | nil => exact Memory.read_consCell rfl
  | cons c m ih =>
    obtain ⟨a, b⟩ := c
    obtain ⟨h1, h2, h3, h4⟩ := Memory.wfFrom_cons.1 h
    simp only [Memory.write]
    split
    · exact Memory.read_consCell (Memory.wfFrom_cons.2 ⟨by omega, h2, h3, h4⟩)
    · split
      · subst x
        rw [Memory.read_consCell h4, Memory.read]
        by_cases hy : y = a
        · simp [hy]
        · simp [hy, Ne.symm hy]
      · simp only [Memory.read, ih h4]
        by_cases hy : a = y
        · subst hy; rw [if_pos rfl, if_pos rfl, if_neg (by omega)]
        · simp [hy]

/-- A read after a write: the byte written at its address, what was there anywhere else. -/
theorem Memory.read_write {x y : Nat} {v : Byte} {m : Memory} (h : m.wf = true) :
    (m.write x v).read y = if y = x then v else m.read y :=
  Memory.read_writeAt h

/-- A read after a run of writes. -/
theorem Memory.read_writeFrom {addr y : Nat} {bs : List Byte} {m : Memory} (h : m.wf = true)
    (hb : addr + bs.length ≤ Config.memSize) :
    (m.writeFrom addr bs).read y =
      if hy : addr ≤ y ∧ y < addr + bs.length then bs[y - addr]'(by omega) else m.read y := by
  induction bs generalizing m addr with
  | nil => rw [dif_neg (by rw [List.length_nil]; omega)]; rfl
  | cons b bs ih =>
    rw [List.length_cons] at hb
    rw [Memory.writeFrom, ih (Memory.wf_write h (by omega)) (by omega), Memory.read_write h]
    simp only [List.length_cons]
    by_cases hy : y = addr
    · subst hy; simp
    · by_cases hin : addr + 1 ≤ y ∧ y < addr + 1 + bs.length
      · have : y - addr = (y - (addr + 1)) + 1 := by omega
        rw [dif_pos hin, dif_pos (by omega)]; simp [this]
      · rw [dif_neg hin, if_neg hy, dif_neg (by omega)]

/-- `MemRead` answers exactly when its range stays in memory, and then with the bytes of the range. -/
theorem memRead_eq_some {s : State} {addr n : Nat} {bs : List Byte} :
    memRead s addr n = some bs ↔ (n = 0 ∨ addr + n ≤ Config.memSize) ∧ bs = s.mem.bytesAt addr n := by
  unfold memRead inBounds
  split
  · rename_i h; simp at h; simp [h, eq_comm]
  · rename_i h; simp at h; simp; omega

theorem memRead_eq_none {s : State} {addr n : Nat} :
    memRead s addr n = none ↔ n ≠ 0 ∧ Config.memSize < addr + n := by
  unfold memRead inBounds
  split
  · rename_i h; simp at h; simp; omega
  · rename_i h; simp at h; simp; omega

@[simp] theorem Memory.length_bytesAt (m : Memory) (addr n : Nat) : (m.bytesAt addr n).length = n := by
  simp [Memory.bytesAt]

@[simp] theorem Memory.getElem_bytesAt (m : Memory) (addr n i : Nat) (h : i < (m.bytesAt addr n).length) :
    (m.bytesAt addr n)[i] = m.read (addr + i) := by
  simp [Memory.bytesAt]

/-! ## Equal contents are equal data -/

theorem Memory.ext_from {lo : Nat} {m m' : Memory} (h : Memory.wfFrom lo m = true) (h' : Memory.wfFrom lo m' = true)
    (e : ∀ a, m.read a = m'.read a) : m = m' := by
  induction m generalizing lo m' with
  | nil =>
    cases m' with
    | nil => rfl
    | cons c m' =>
      obtain ⟨a, b⟩ := c
      have hb := (Memory.wfFrom_cons.1 h').2.2.1
      exact absurd (by simpa [Memory.read] using (e a).symm) hb
  | cons c m ih =>
    obtain ⟨a, b⟩ := c
    obtain ⟨h1, h2, h3, h4⟩ := Memory.wfFrom_cons.1 h
    cases m' with
    | nil => exact absurd (by simpa [Memory.read] using e a) h3
    | cons c' m' =>
      obtain ⟨a', b'⟩ := c'
      obtain ⟨h1', h2', h3', h4'⟩ := Memory.wfFrom_cons.1 h'
      have ha : a = a' := by
        rcases Nat.lt_trichotomy a a' with hlt | heq | hgt
        · have := e a
          rw [Memory.read, if_pos rfl, Memory.read_below (Memory.wfFrom_cons.2 ⟨Nat.le_refl a', h2', h3', h4'⟩) hlt] at this
          exact absurd this h3
        · exact heq
        · have := e a'
          rw [Memory.read_below (Memory.wfFrom_cons.2 ⟨Nat.le_refl a, h2, h3, h4⟩) hgt, Memory.read, if_pos rfl] at this
          exact absurd this.symm h3'
      subst ha
      have hb : b = b' := by simpa [Memory.read] using e a
      subst hb
      refine congrArg _ (ih h4 h4' fun y => ?_)
      by_cases hy : y < a + 1
      · rw [Memory.read_below h4 hy, Memory.read_below h4' hy]
      · have := e y
        rwa [Memory.read, if_neg (by omega), Memory.read, if_neg (by omega)] at this

/-- Two memories in canonical form that read alike are the same data. -/
theorem Memory.ext_of_wf {m m' : Memory} (h : m.wf = true) (h' : m'.wf = true) (e : ∀ a, m.read a = m'.read a) :
    m = m' :=
  Memory.ext_from h h' e

/-- Every contents of the 4096 bytes is some memory in canonical form, so a claim over every such memory is a
claim over every MEM_INIT (R42). -/
theorem Memory.exists_of_contents (f : Nat → Byte) :
    ∃ m : Memory, m.wf = true ∧ ∀ a, a < Config.memSize → m.read a = f a := by
  have hlen : ((List.range Config.memSize).map f).length = Config.memSize := by simp
  refine ⟨Memory.writeFrom [] 0 ((List.range Config.memSize).map f), Memory.wf_writeFrom Memory.wf_nil (by rw [hlen]; omega), fun a ha => ?_⟩
  rw [Memory.read_writeFrom Memory.wf_nil (by rw [hlen]; omega), dif_pos (by rw [hlen]; omega)]
  simp

end Sys2Proof.Machine
end

