-- ==== Sys2Proof/Laws/State.lean ====
section
/-! SUPPORT. What each update of the state leaves in each field, one lemma a field, true by unfolding once. -/

namespace Sys2Proof.Machine

variable (s : State)

/-! ## Writing a general register -/

@[simp] theorem State.setReg_V (x : RegIdx) (v : Byte) : (s.setReg x v).V = s.V.set x.val v := rfl
@[simp] theorem State.setReg_I (x : RegIdx) (v : Byte) : (s.setReg x v).I = s.I := rfl
@[simp] theorem State.setReg_DT (x : RegIdx) (v : Byte) : (s.setReg x v).DT = s.DT := rfl
@[simp] theorem State.setReg_ST (x : RegIdx) (v : Byte) : (s.setReg x v).ST = s.ST := rfl
@[simp] theorem State.setReg_stack (x : RegIdx) (v : Byte) : (s.setReg x v).stack = s.stack := rfl
@[simp] theorem State.setReg_sp (x : RegIdx) (v : Byte) : (s.setReg x v).sp = s.sp := rfl
@[simp] theorem State.setReg_pc (x : RegIdx) (v : Byte) : (s.setReg x v).pc = s.pc := rfl
@[simp] theorem State.setReg_fb (x : RegIdx) (v : Byte) : (s.setReg x v).fb = s.fb := rfl
@[simp] theorem State.setReg_keyCode (x : RegIdx) (v : Byte) : (s.setReg x v).keyCode = s.keyCode := rfl
@[simp] theorem State.setReg_keyPressed (x : RegIdx) (v : Byte) : (s.setReg x v).keyPressed = s.keyPressed := rfl
@[simp] theorem State.setReg_mem (x : RegIdx) (v : Byte) : (s.setReg x v).mem = s.mem := rfl
@[simp] theorem State.setReg_run (x : RegIdx) (v : Byte) : (s.setReg x v).run = s.run := rfl
@[simp] theorem State.setReg_haltCause (x : RegIdx) (v : Byte) : (s.setReg x v).haltCause = s.haltCause := rfl
@[simp] theorem State.setReg_haltOpcode (x : RegIdx) (v : Byte) : (s.setReg x v).haltOpcode = s.haltOpcode := rfl
@[simp] theorem State.setReg_display (x : RegIdx) (v : Byte) : (s.setReg x v).display = s.display := rfl
@[simp] theorem State.setReg_pending (x : RegIdx) (v : Byte) : (s.setReg x v).pending = s.pending := rfl
@[simp] theorem State.setReg_drawn (x : RegIdx) (v : Byte) : (s.setReg x v).drawn = s.drawn := rfl

/-! ## Moving the program counter -/

@[simp] theorem State.advance_V (k : Word) : (s.advance k).V = s.V := rfl
@[simp] theorem State.advance_I (k : Word) : (s.advance k).I = s.I := rfl
@[simp] theorem State.advance_DT (k : Word) : (s.advance k).DT = s.DT := rfl
@[simp] theorem State.advance_ST (k : Word) : (s.advance k).ST = s.ST := rfl
@[simp] theorem State.advance_stack (k : Word) : (s.advance k).stack = s.stack := rfl
@[simp] theorem State.advance_sp (k : Word) : (s.advance k).sp = s.sp := rfl
@[simp] theorem State.advance_pc (k : Word) : (s.advance k).pc = s.pc + k := rfl
@[simp] theorem State.advance_fb (k : Word) : (s.advance k).fb = s.fb := rfl
@[simp] theorem State.advance_keyCode (k : Word) : (s.advance k).keyCode = s.keyCode := rfl
@[simp] theorem State.advance_keyPressed (k : Word) : (s.advance k).keyPressed = s.keyPressed := rfl
@[simp] theorem State.advance_mem (k : Word) : (s.advance k).mem = s.mem := rfl
@[simp] theorem State.advance_run (k : Word) : (s.advance k).run = s.run := rfl
@[simp] theorem State.advance_haltCause (k : Word) : (s.advance k).haltCause = s.haltCause := rfl
@[simp] theorem State.advance_haltOpcode (k : Word) : (s.advance k).haltOpcode = s.haltOpcode := rfl
@[simp] theorem State.advance_display (k : Word) : (s.advance k).display = s.display := rfl
@[simp] theorem State.advance_pending (k : Word) : (s.advance k).pending = s.pending := rfl
@[simp] theorem State.advance_drawn (k : Word) : (s.advance k).drawn = s.drawn := rfl

/-! ## Jumping -/

@[simp] theorem State.jumpTo_V (a : Word) : (s.jumpTo a).V = s.V := rfl
@[simp] theorem State.jumpTo_I (a : Word) : (s.jumpTo a).I = s.I := rfl
@[simp] theorem State.jumpTo_DT (a : Word) : (s.jumpTo a).DT = s.DT := rfl
@[simp] theorem State.jumpTo_ST (a : Word) : (s.jumpTo a).ST = s.ST := rfl
@[simp] theorem State.jumpTo_stack (a : Word) : (s.jumpTo a).stack = s.stack := rfl
@[simp] theorem State.jumpTo_sp (a : Word) : (s.jumpTo a).sp = s.sp := rfl
@[simp] theorem State.jumpTo_pc (a : Word) : (s.jumpTo a).pc = a := rfl
@[simp] theorem State.jumpTo_fb (a : Word) : (s.jumpTo a).fb = s.fb := rfl
@[simp] theorem State.jumpTo_keyCode (a : Word) : (s.jumpTo a).keyCode = s.keyCode := rfl
@[simp] theorem State.jumpTo_keyPressed (a : Word) : (s.jumpTo a).keyPressed = s.keyPressed := rfl
@[simp] theorem State.jumpTo_mem (a : Word) : (s.jumpTo a).mem = s.mem := rfl
@[simp] theorem State.jumpTo_run (a : Word) : (s.jumpTo a).run = s.run := rfl
@[simp] theorem State.jumpTo_haltCause (a : Word) : (s.jumpTo a).haltCause = s.haltCause := rfl
@[simp] theorem State.jumpTo_haltOpcode (a : Word) : (s.jumpTo a).haltOpcode = s.haltOpcode := rfl
@[simp] theorem State.jumpTo_display (a : Word) : (s.jumpTo a).display = s.display := rfl
@[simp] theorem State.jumpTo_pending (a : Word) : (s.jumpTo a).pending = s.pending := rfl
@[simp] theorem State.jumpTo_drawn (a : Word) : (s.jumpTo a).drawn = s.drawn := rfl

/-! ## Halting -/

@[simp] theorem State.halt_V (c : HaltCause) (w : Word) : (s.halt c w).V = s.V := rfl
@[simp] theorem State.halt_I (c : HaltCause) (w : Word) : (s.halt c w).I = s.I := rfl
@[simp] theorem State.halt_DT (c : HaltCause) (w : Word) : (s.halt c w).DT = s.DT := rfl
@[simp] theorem State.halt_ST (c : HaltCause) (w : Word) : (s.halt c w).ST = s.ST := rfl
@[simp] theorem State.halt_stack (c : HaltCause) (w : Word) : (s.halt c w).stack = s.stack := rfl
@[simp] theorem State.halt_sp (c : HaltCause) (w : Word) : (s.halt c w).sp = s.sp := rfl
@[simp] theorem State.halt_pc (c : HaltCause) (w : Word) : (s.halt c w).pc = s.pc := rfl
@[simp] theorem State.halt_fb (c : HaltCause) (w : Word) : (s.halt c w).fb = s.fb := rfl
@[simp] theorem State.halt_keyCode (c : HaltCause) (w : Word) : (s.halt c w).keyCode = s.keyCode := rfl
@[simp] theorem State.halt_keyPressed (c : HaltCause) (w : Word) : (s.halt c w).keyPressed = s.keyPressed := rfl
@[simp] theorem State.halt_mem (c : HaltCause) (w : Word) : (s.halt c w).mem = s.mem := rfl
@[simp] theorem State.halt_run (c : HaltCause) (w : Word) : (s.halt c w).run = .halted := rfl
@[simp] theorem State.halt_haltCause (c : HaltCause) (w : Word) : (s.halt c w).haltCause = c := rfl
@[simp] theorem State.halt_haltOpcode (c : HaltCause) (w : Word) : (s.halt c w).haltOpcode = w := rfl
@[simp] theorem State.halt_display (c : HaltCause) (w : Word) : (s.halt c w).display = s.display := rfl
@[simp] theorem State.halt_pending (c : HaltCause) (w : Word) : (s.halt c w).pending = s.pending := rfl
@[simp] theorem State.halt_drawn (c : HaltCause) (w : Word) : (s.halt c w).drawn = s.drawn := rfl

/-! ## A timer tick -/

@[simp] theorem State.tick_V : (s.tick).V = s.V := rfl
@[simp] theorem State.tick_I : (s.tick).I = s.I := rfl
@[simp] theorem State.tick_DT : (s.tick).DT = countDown s.DT := rfl
@[simp] theorem State.tick_ST : (s.tick).ST = countDown s.ST := rfl
@[simp] theorem State.tick_stack : (s.tick).stack = s.stack := rfl
@[simp] theorem State.tick_sp : (s.tick).sp = s.sp := rfl
@[simp] theorem State.tick_pc : (s.tick).pc = s.pc := rfl
@[simp] theorem State.tick_fb : (s.tick).fb = s.fb := rfl
@[simp] theorem State.tick_keyCode : (s.tick).keyCode = s.keyCode := rfl
@[simp] theorem State.tick_keyPressed : (s.tick).keyPressed = s.keyPressed := rfl
@[simp] theorem State.tick_mem : (s.tick).mem = s.mem := rfl
@[simp] theorem State.tick_run : (s.tick).run = s.run := rfl
@[simp] theorem State.tick_haltCause : (s.tick).haltCause = s.haltCause := rfl
@[simp] theorem State.tick_haltOpcode : (s.tick).haltOpcode = s.haltOpcode := rfl
@[simp] theorem State.tick_display : (s.tick).display = s.display := rfl
@[simp] theorem State.tick_pending : (s.tick).pending = s.pending := rfl
@[simp] theorem State.tick_drawn : (s.tick).drawn = s.drawn := rfl

/-! ## The key refresh: the two fields of the latch, and nothing else -/

@[simp] theorem State.refreshKey_V (k : KeySample) : (s.refreshKey k).V = s.V := by cases k <;> rfl
@[simp] theorem State.refreshKey_I (k : KeySample) : (s.refreshKey k).I = s.I := by cases k <;> rfl
@[simp] theorem State.refreshKey_DT (k : KeySample) : (s.refreshKey k).DT = s.DT := by cases k <;> rfl
@[simp] theorem State.refreshKey_ST (k : KeySample) : (s.refreshKey k).ST = s.ST := by cases k <;> rfl
@[simp] theorem State.refreshKey_stack (k : KeySample) : (s.refreshKey k).stack = s.stack := by cases k <;> rfl
@[simp] theorem State.refreshKey_sp (k : KeySample) : (s.refreshKey k).sp = s.sp := by cases k <;> rfl
@[simp] theorem State.refreshKey_pc (k : KeySample) : (s.refreshKey k).pc = s.pc := by cases k <;> rfl
@[simp] theorem State.refreshKey_fb (k : KeySample) : (s.refreshKey k).fb = s.fb := by cases k <;> rfl
@[simp] theorem State.refreshKey_mem (k : KeySample) : (s.refreshKey k).mem = s.mem := by cases k <;> rfl
@[simp] theorem State.refreshKey_run (k : KeySample) : (s.refreshKey k).run = s.run := by cases k <;> rfl
@[simp] theorem State.refreshKey_haltCause (k : KeySample) : (s.refreshKey k).haltCause = s.haltCause := by cases k <;> rfl
@[simp] theorem State.refreshKey_haltOpcode (k : KeySample) : (s.refreshKey k).haltOpcode = s.haltOpcode := by cases k <;> rfl
@[simp] theorem State.refreshKey_display (k : KeySample) : (s.refreshKey k).display = s.display := by cases k <;> rfl
@[simp] theorem State.refreshKey_pending (k : KeySample) : (s.refreshKey k).pending = s.pending := by cases k <;> rfl
@[simp] theorem State.refreshKey_drawn (k : KeySample) : (s.refreshKey k).drawn = s.drawn := by cases k <;> rfl

@[simp] theorem State.refreshKey_key_keyCode (c : KeyCode) : (s.refreshKey (.key c)).keyCode = c := rfl
@[simp] theorem State.refreshKey_key_keyPressed (c : KeyCode) : (s.refreshKey (.key c)).keyPressed = true := rfl
@[simp] theorem State.refreshKey_noKey_keyCode : (s.refreshKey .noKey).keyCode = s.keyCode := rfl
@[simp] theorem State.refreshKey_noKey_keyPressed : (s.refreshKey .noKey).keyPressed = false := rfl
@[simp] theorem State.refreshKey_quit : s.refreshKey .quit = s := rfl

/-! ## Loading registers from bytes: the register file, and nothing else -/

@[simp] theorem State.setRegsFrom_I (i : Nat) (bs : List Byte) : (s.setRegsFrom i bs).I = s.I := by
  induction bs generalizing s i with
  | nil => rfl
  | cons b bs ih => simp only [State.setRegsFrom, ih]; split <;> rfl
@[simp] theorem State.setRegsFrom_DT (i : Nat) (bs : List Byte) : (s.setRegsFrom i bs).DT = s.DT := by
  induction bs generalizing s i with
  | nil => rfl
  | cons b bs ih => simp only [State.setRegsFrom, ih]; split <;> rfl
@[simp] theorem State.setRegsFrom_ST (i : Nat) (bs : List Byte) : (s.setRegsFrom i bs).ST = s.ST := by
  induction bs generalizing s i with
  | nil => rfl
  | cons b bs ih => simp only [State.setRegsFrom, ih]; split <;> rfl
@[simp] theorem State.setRegsFrom_stack (i : Nat) (bs : List Byte) : (s.setRegsFrom i bs).stack = s.stack := by
  induction bs generalizing s i with
  | nil => rfl
  | cons b bs ih => simp only [State.setRegsFrom, ih]; split <;> rfl
@[simp] theorem State.setRegsFrom_sp (i : Nat) (bs : List Byte) : (s.setRegsFrom i bs).sp = s.sp := by
  induction bs generalizing s i with
  | nil => rfl
  | cons b bs ih => simp only [State.setRegsFrom, ih]; split <;> rfl
@[simp] theorem State.setRegsFrom_pc (i : Nat) (bs : List Byte) : (s.setRegsFrom i bs).pc = s.pc := by
  induction bs generalizing s i with
  | nil => rfl
  | cons b bs ih => simp only [State.setRegsFrom, ih]; split <;> rfl
@[simp] theorem State.setRegsFrom_fb (i : Nat) (bs : List Byte) : (s.setRegsFrom i bs).fb = s.fb := by
  induction bs generalizing s i with
  | nil => rfl
  | cons b bs ih => simp only [State.setRegsFrom, ih]; split <;> rfl
@[simp] theorem State.setRegsFrom_keyCode (i : Nat) (bs : List Byte) : (s.setRegsFrom i bs).keyCode = s.keyCode := by
  induction bs generalizing s i with
  | nil => rfl
  | cons b bs ih => simp only [State.setRegsFrom, ih]; split <;> rfl
@[simp] theorem State.setRegsFrom_keyPressed (i : Nat) (bs : List Byte) : (s.setRegsFrom i bs).keyPressed = s.keyPressed := by
  induction bs generalizing s i with
  | nil => rfl
  | cons b bs ih => simp only [State.setRegsFrom, ih]; split <;> rfl
@[simp] theorem State.setRegsFrom_mem (i : Nat) (bs : List Byte) : (s.setRegsFrom i bs).mem = s.mem := by
  induction bs generalizing s i with
  | nil => rfl
  | cons b bs ih => simp only [State.setRegsFrom, ih]; split <;> rfl
@[simp] theorem State.setRegsFrom_run (i : Nat) (bs : List Byte) : (s.setRegsFrom i bs).run = s.run := by
  induction bs generalizing s i with
  | nil => rfl
  | cons b bs ih => simp only [State.setRegsFrom, ih]; split <;> rfl
@[simp] theorem State.setRegsFrom_haltCause (i : Nat) (bs : List Byte) : (s.setRegsFrom i bs).haltCause = s.haltCause := by
  induction bs generalizing s i with
  | nil => rfl
  | cons b bs ih => simp only [State.setRegsFrom, ih]; split <;> rfl
@[simp] theorem State.setRegsFrom_haltOpcode (i : Nat) (bs : List Byte) : (s.setRegsFrom i bs).haltOpcode = s.haltOpcode := by
  induction bs generalizing s i with
  | nil => rfl
  | cons b bs ih => simp only [State.setRegsFrom, ih]; split <;> rfl
@[simp] theorem State.setRegsFrom_display (i : Nat) (bs : List Byte) : (s.setRegsFrom i bs).display = s.display := by
  induction bs generalizing s i with
  | nil => rfl
  | cons b bs ih => simp only [State.setRegsFrom, ih]; split <;> rfl
@[simp] theorem State.setRegsFrom_pending (i : Nat) (bs : List Byte) : (s.setRegsFrom i bs).pending = s.pending := by
  induction bs generalizing s i with
  | nil => rfl
  | cons b bs ih => simp only [State.setRegsFrom, ih]; split <;> rfl
@[simp] theorem State.setRegsFrom_drawn (i : Nat) (bs : List Byte) : (s.setRegsFrom i bs).drawn = s.drawn := by
  induction bs generalizing s i with
  | nil => rfl
  | cons b bs ih => simp only [State.setRegsFrom, ih]; split <;> rfl

/-! ## Taking an input: the pending list and the counter, and nothing else -/

@[simp] theorem State.takeInput_V : s.takeInput.2.V = s.V := by
  unfold State.takeInput; split <;> rfl
@[simp] theorem State.takeInput_I : s.takeInput.2.I = s.I := by
  unfold State.takeInput; split <;> rfl
@[simp] theorem State.takeInput_DT : s.takeInput.2.DT = s.DT := by
  unfold State.takeInput; split <;> rfl
@[simp] theorem State.takeInput_ST : s.takeInput.2.ST = s.ST := by
  unfold State.takeInput; split <;> rfl
@[simp] theorem State.takeInput_stack : s.takeInput.2.stack = s.stack := by
  unfold State.takeInput; split <;> rfl
@[simp] theorem State.takeInput_sp : s.takeInput.2.sp = s.sp := by
  unfold State.takeInput; split <;> rfl
@[simp] theorem State.takeInput_pc : s.takeInput.2.pc = s.pc := by
  unfold State.takeInput; split <;> rfl
@[simp] theorem State.takeInput_fb : s.takeInput.2.fb = s.fb := by
  unfold State.takeInput; split <;> rfl
@[simp] theorem State.takeInput_keyCode : s.takeInput.2.keyCode = s.keyCode := by
  unfold State.takeInput; split <;> rfl
@[simp] theorem State.takeInput_keyPressed : s.takeInput.2.keyPressed = s.keyPressed := by
  unfold State.takeInput; split <;> rfl
@[simp] theorem State.takeInput_mem : s.takeInput.2.mem = s.mem := by
  unfold State.takeInput; split <;> rfl
@[simp] theorem State.takeInput_run : s.takeInput.2.run = s.run := by
  unfold State.takeInput; split <;> rfl
@[simp] theorem State.takeInput_haltCause : s.takeInput.2.haltCause = s.haltCause := by
  unfold State.takeInput; split <;> rfl
@[simp] theorem State.takeInput_haltOpcode : s.takeInput.2.haltOpcode = s.haltOpcode := by
  unfold State.takeInput; split <;> rfl
@[simp] theorem State.takeInput_display : s.takeInput.2.display = s.display := by
  unfold State.takeInput; split <;> rfl

/-! ## The updates that are another update under a name of its own -/

@[simp] theorem State.raise_eq_halt (c : HaltCause) (w : Word) : s.raise c w = s.halt c w := rfl
@[simp] theorem State.nextInstr_eq_advance : s.nextInstr = s.advance 2 := rfl
@[simp] theorem State.setFlag_eq_setReg (c : Bool) : s.setFlag c = s.setReg flagReg (flagByte c) := rfl

theorem State.skipIf_eq_advance (c : Bool) : s.skipIf c = s.advance (if c then 4 else 2) := by
  cases c <;> rfl

/-! ## Reading registers after an update -/

@[simp] theorem State.reg_setReg_same (x : RegIdx) (v : Byte) : (s.setReg x v).reg x = v := by
  simp [State.reg, Vector.get_eq_getElem]

theorem State.reg_setReg_other (x r : RegIdx) (v : Byte) (h : r ≠ x) : (s.setReg x v).reg r = s.reg r := by
  have : x.val ≠ r.val := fun e => h (Fin.ext e.symm)
  simp [State.reg, Vector.get_eq_getElem, Vector.getElem_set_ne, this]

theorem State.reg_setReg (x r : RegIdx) (v : Byte) : (s.setReg x v).reg r = if r = x then v else s.reg r := by
  by_cases h : r = x
  · subst h; simp
  · simp [h, State.reg_setReg_other]

/-- Two states read alike when their register files are the same. -/
theorem State.reg_congr {s t : State} (h : s.V = t.V) (r : RegIdx) : s.reg r = t.reg r := by
  simp [State.reg, h]

@[simp] theorem State.reg_advance (k : Word) (r : RegIdx) : (s.advance k).reg r = s.reg r := rfl
@[simp] theorem State.reg_jumpTo (a : Word) (r : RegIdx) : (s.jumpTo a).reg r = s.reg r := rfl
@[simp] theorem State.reg_halt (c : HaltCause) (w : Word) (r : RegIdx) : (s.halt c w).reg r = s.reg r := rfl
@[simp] theorem State.reg_tick (r : RegIdx) : s.tick.reg r = s.reg r := rfl
@[simp] theorem State.reg_refreshKey (k : KeySample) (r : RegIdx) : (s.refreshKey k).reg r = s.reg r :=
  State.reg_congr (by simp) r

/-- The register load: register `i + j` receives byte `j`, every other register keeps its value. -/
theorem State.reg_setRegsFrom (i : Nat) (bs : List Byte) (r : RegIdx) :
    (s.setRegsFrom i bs).reg r =
      if h : i ≤ r.val ∧ r.val < i + bs.length then bs[r.val - i]'(by omega) else s.reg r := by
  induction bs generalizing s i with
  | nil => rw [dif_neg (by rw [List.length_nil]; omega)]; rfl
  | cons b bs ih =>
    simp only [State.setRegsFrom, ih, List.length_cons]
    by_cases hi : r.val = i
    · have hlt : i < 16 := by omega
      have hr : r = ⟨i, hlt⟩ := Fin.ext hi
      have h1 : ¬(i + 1 ≤ r.val ∧ r.val < i + 1 + bs.length) := by omega
      have h2 : i ≤ r.val ∧ r.val < i + (bs.length + 1) := by omega
      rw [dif_neg h1, dif_pos h2, dif_pos hlt]
      simp [hr]
    · have hkeep : (if h : i < 16 then s.setReg ⟨i, h⟩ b else s).reg r = s.reg r := by
        split
        · exact State.reg_setReg_other _ _ _ _ fun e => hi (by simp [e])
        · rfl
      by_cases hin : i + 1 ≤ r.val ∧ r.val < i + 1 + bs.length
      · have h2 : i ≤ r.val ∧ r.val < i + (bs.length + 1) := by omega
        rw [dif_pos hin, dif_pos h2]
        have : r.val - i = (r.val - (i + 1)) + 1 := by omega
        simp [this]
      · have h2 : ¬(i ≤ r.val ∧ r.val < i + (bs.length + 1)) := by omega
        rw [dif_neg hin, dif_neg h2, hkeep]

end Sys2Proof.Machine
end

