-- ==== Sys2Proof/Laws/Ops.lean ====
section
/-! SUPPORT. One lemma a shared operation: all that it can answer. Proofs cite these instead of unfolding. -/

namespace Sys2Proof.Machine

/-! ## Stack -/

theorem State.pop_of_empty {s : State} (h : s.sp.val = 0) : s.pop = none := by
  simp [State.pop, h]

theorem State.pop_of_count {s : State} {n : Nat} (hn : n < 15) (h : s.sp.val = n + 1) :
    s.pop = some (s.stack[n], { s with sp := ⟨n, Nat.lt_succ_of_lt hn⟩ }) := by
  simp [State.pop, h]

theorem State.push_of_full {s : State} (v : Word) (h : s.sp.val = 15) : s.push v = none := by
  simp [State.push, h]

theorem State.push_of_room {s : State} (v : Word) (h : s.sp.val < 15) :
    s.push v = some { s with stack := s.stack.set s.sp.val v, sp := ⟨s.sp.val + 1, Nat.succ_lt_succ h⟩ } := by
  simp [State.push, h]

/-! ## Timers -/

theorem countDown_toNat (t : Byte) : (countDown t).toNat = t.toNat - 1 := by
  unfold countDown
  split
  · simp [*]
  · have : t.toNat ≠ 0 := fun h => ‹¬t = 0› (BitVec.eq_of_toNat_eq h)
    rw [BitVec.toNat_sub_of_le (by simp only [BitVec.le_def]; simp; omega)]; simp

/-! ## The indexed operand -/

theorem indexedOperand_eq_some {s : State} {n : Nat} {bs : List Byte} :
    indexedOperand s n = some bs ↔
      (n = 0 ∨ s.I.toNat + n ≤ Config.memSize) ∧ bs = s.mem.bytesAt s.I.toNat n :=
  memRead_eq_some

theorem indexedOperand_eq_none {s : State} {n : Nat} :
    indexedOperand s n = none ↔ n ≠ 0 ∧ Config.memSize < s.I.toNat + n :=
  memRead_eq_none

/-! ## The key condition -/

theorem keyMatches_iff {s : State} {x : RegIdx} :
    keyMatches s x = true ↔ s.keyPressed = true ∧ s.keyCode.toNat = (s.reg x).toNat := by
  have : (s.keyCode.setWidth 8).toNat = s.keyCode.toNat := by
    have := s.keyCode.isLt
    rw [BitVec.toNat_setWidth]; omega
  rw [← this, BitVec.toNat_inj, keyMatches, Bool.and_eq_true, beq_iff_eq]
  rfl

/-! ## Fetch -/

theorem BitVec_bit0_iff_odd (v : Word) : v.getLsbD 0 = true ↔ v.toNat % 2 = 1 := by
  simp [BitVec.getLsbD, Nat.testBit_zero]

theorem State.fetch_past_end {s : State} (h : 0x0FFE < s.pc.toNat) : s.fetch = .error .outOfBoundsAccess := by
  rw [State.fetch, if_pos h]

theorem State.fetch_odd {s : State} (h : s.pc.toNat ≤ 0x0FFE) (ho : s.pc.toNat % 2 = 1) :
    s.fetch = .error .misalignedFetch := by
  rw [State.fetch, if_neg (by omega), if_pos ((BitVec_bit0_iff_odd _).2 ho)]

theorem State.fetch_of_fetchable {s : State} (h : s.fetchable) : s.fetch = .ok s.wordAtPc := by
  rw [State.fetch, if_neg (by have := h.1; omega), if_neg]
  intro e
  have := (BitVec_bit0_iff_odd _).1 e
  have := h.2
  omega

theorem fetchDecodeExecute_of_fetchable {s : State} (h : s.fetchable) :
    fetchDecodeExecute s = exec (decode s.wordAtPc) s := by
  rw [fetchDecodeExecute, State.fetch_of_fetchable h]

@[simp] theorem State.wordAtPc_refreshKey (s : State) (k : KeySample) : (s.refreshKey k).wordAtPc = s.wordAtPc := by
  simp [State.wordAtPc]

@[simp] theorem State.wordAtPc_takeInput (s : State) : s.takeInput.2.wordAtPc = s.wordAtPc := by
  simp [State.wordAtPc]

/-! ## One step -/

theorem cycle_eq {k : KeySample} (hk : k ≠ .quit) (s : State) : cycle k s = fetchDecodeExecute (s.refreshKey k) := by
  cases k <;> first | rfl | exact absurd rfl hk

theorem step_running {s : State} (h : s.run = .running) : step s = runInput s.takeInput.1 s.takeInput.2 := by
  simp [step, h, runNextInput]

theorem step_halted {s : State} (h : s.run = .halted) : step s = .fault .haltedNoStep := by
  simp [step, h]

/-- All that a step can do when it answers a next state. -/
theorem step_cases {s t : State} (h : step s = .next t) :
    s.run = .running ∧
    ((s.takeInput.1 = .tick ∧ t = s.takeInput.2.tick) ∨
     (s.takeInput.1 = .cycle .quit ∧ t = s.takeInput.2.halt .quit 0) ∨
     ∃ k, s.takeInput.1 = .cycle k ∧ k ≠ .quit ∧
      ((0x0FFE < s.pc.toNat ∧ t = (s.takeInput.2.refreshKey k).halt .outOfBoundsAccess 0) ∨
       (s.pc.toNat ≤ 0x0FFE ∧ s.pc.toNat % 2 = 1 ∧ t = (s.takeInput.2.refreshKey k).halt .misalignedFetch 0) ∨
       (s.fetchable ∧ exec (decode s.wordAtPc) (s.takeInput.2.refreshKey k) = .next t))) := by
  cases hr : s.run with
  | halted => simp [step_halted hr] at h
  | running =>
    refine ⟨rfl, ?_⟩
    rw [step_running hr] at h
    cases hi : s.takeInput.1 with
    | tick => rw [hi] at h; cases h; exact .inl ⟨rfl, rfl⟩
    | cycle k =>
      rw [hi] at h
      by_cases hk : k = .quit
      · subst hk; cases h; exact .inr (.inl ⟨rfl, rfl⟩)
      · refine .inr (.inr ⟨k, rfl, hk, ?_⟩)
        rw [runInput, cycle_eq hk] at h
        by_cases hp : 0x0FFE < s.pc.toNat
        · rw [fetchDecodeExecute, State.fetch_past_end (by simpa using hp)] at h
          cases h; exact .inl ⟨hp, rfl⟩
        · by_cases ho : s.pc.toNat % 2 = 1
          · rw [fetchDecodeExecute, State.fetch_odd (by simp; omega) (by simpa using ho)] at h
            cases h; exact .inr (.inl ⟨by omega, ho, rfl⟩)
          · have hf : s.fetchable := ⟨by omega, by omega⟩
            rw [fetchDecodeExecute_of_fetchable (by simpa [State.fetchable] using hf)] at h
            exact .inr (.inr ⟨hf, by simpa using h⟩)

/-! ## What the host reads -/

theorem State.snapshot_running {s : State} (h : s.run = .running) : s.snapshot = none := by simp [State.snapshot, h]

theorem State.snapshot_halted {s : State} (h : s.run = .halted) : s.snapshot = some s.dump := by
  simp [State.snapshot, h]

theorem State.exitSuccess_running {s : State} (h : s.run = .running) : s.exitSuccess = none := by
  simp [State.exitSuccess, h]

theorem State.exitSuccess_halted {s : State} (h : s.run = .halted) :
    s.exitSuccess = some (decide (s.haltCause.code = 1)) := by
  simp [State.exitSuccess, h]

theorem State.length_liveStack (s : State) : s.liveStack.length = s.sp.val := by
  have := s.sp.isLt
  simp [State.liveStack]; omega

theorem State.getElem?_liveStack {s : State} {j : Nat} (hj : j < s.sp.val) :
    s.liveStack[j]? = some (s.stack[j]'(by have := s.sp.isLt; omega)) := by
  have := s.sp.isLt
  simp [State.liveStack, hj, show j < 15 by omega]

end Sys2Proof.Machine
end

