-- ==== Sys2Proof/Laws/PerInstr.lean ====
section
/-! SUPPORT. One family of statements made per instruction: the encoder puts every instruction in the row of the opcode
table that is its own (30_encoding.md R76), and an Unknown word in none. -/

namespace Sys2Proof.Laws

/-- The row of R76 an instruction belongs to; Unknown words belong to none. -/
def rowOf : Instr → Option OpcodeRow
  | .ret => some ⟨0xFFFF#16, 0x00EE#16⟩
  | .jp _ => some ⟨0xF000#16, 0x1000#16⟩
  | .call _ => some ⟨0xF000#16, 0x2000#16⟩
  | .se _ _ => some ⟨0xF000#16, 0x3000#16⟩
  | .sne _ _ => some ⟨0xF000#16, 0x4000#16⟩
  | .ldVxKk _ _ => some ⟨0xF000#16, 0x6000#16⟩
  | .addVxKk _ _ => some ⟨0xF000#16, 0x7000#16⟩
  | .ldVxVy _ _ => some ⟨0xF00F#16, 0x8000#16⟩
  | .ldINnn _ => some ⟨0xF000#16, 0xA000#16⟩
  | .drw _ _ _ => some ⟨0xF000#16, 0xD000#16⟩
  | .sknp _ => some ⟨0xF0FF#16, 0xE0A1#16⟩
  | .ldVxDt _ => some ⟨0xF0FF#16, 0xF007#16⟩
  | .ldVxK _ => some ⟨0xF0FF#16, 0xF00A#16⟩
  | .ldDtVx _ => some ⟨0xF0FF#16, 0xF015#16⟩
  | .addIVx _ => some ⟨0xF0FF#16, 0xF01E#16⟩
  | .ldVxMemi _ => some ⟨0xF0FF#16, 0xF065#16⟩
  | .unknown _ => none

/-- The word of a well-formed instruction lies in its own row of the table, or in no row when it has none. -/
def EncodeInRow.Statement (i : Instr) : Prop :=
  match rowOf i with
  | some r => r ∈ opcodeRows ∧ r.covers (encode i) = true
  | none => i.wf = true → isInstructionWord (encode i) = false

theorem covers_iff {m p w : Word} : OpcodeRow.covers ⟨m, p⟩ w = true ↔ (w &&& m).toNat = p.toNat := by
  rw [OpcodeRow.covers, beq_iff_eq, BitVec.toNat_inj]

theorem covers_formatA {f : BitVec 4} {p : Word} (nnn : Addr12) (h : f.toNat * 4096 = p.toNat) :
    OpcodeRow.covers ⟨0xF000#16, p⟩ (formatA f nnn) = true := by
  rw [covers_iff, and_F000, fieldF_formatA, h]

theorem covers_formatRI {f : BitVec 4} {p : Word} (x : RegIdx) (kk : Byte) (h : f.toNat * 4096 = p.toNat) :
    OpcodeRow.covers ⟨0xF000#16, p⟩ (formatRI f x kk) = true := by
  rw [covers_iff, and_F000, fieldF_formatRI, h]

theorem covers_formatRF {f : BitVec 4} {p : Word} (x : RegIdx) (kk : Byte) (h : f.toNat * 4096 + kk.toNat = p.toNat) :
    OpcodeRow.covers ⟨0xF0FF#16, p⟩ (formatRI f x kk) = true := by
  rw [covers_iff, and_F0FF, fieldF_formatRI, fieldKk_formatRI, h]

namespace EncodeInRow

theorem ret : Statement .ret := ⟨by decide, by decide⟩
theorem jp (nnn : Addr12) : Statement (.jp nnn) := ⟨by decide, covers_formatA nnn rfl⟩
theorem call (nnn : Addr12) : Statement (.call nnn) := ⟨by decide, covers_formatA nnn rfl⟩
theorem se (x : RegIdx) (kk : Byte) : Statement (.se x kk) := ⟨by decide, covers_formatRI x kk rfl⟩
theorem sne (x : RegIdx) (kk : Byte) : Statement (.sne x kk) := ⟨by decide, covers_formatRI x kk rfl⟩
theorem ldVxKk (x : RegIdx) (kk : Byte) : Statement (.ldVxKk x kk) := ⟨by decide, covers_formatRI x kk rfl⟩
theorem addVxKk (x : RegIdx) (kk : Byte) : Statement (.addVxKk x kk) := ⟨by decide, covers_formatRI x kk rfl⟩
theorem ldVxVy (x y : RegIdx) : Statement (.ldVxVy x y) :=
  ⟨by decide, by rw [covers_iff, encode, and_F00F, fieldF_formatRRN, fieldN_formatRRN]; rfl⟩
theorem ldINnn (nnn : Addr12) : Statement (.ldINnn nnn) := ⟨by decide, covers_formatA nnn rfl⟩
theorem drw (x y : RegIdx) (n : RowCount) : Statement (.drw x y n) :=
  ⟨by decide, by rw [covers_iff, encode, and_F000, fieldF_formatRRN]; rfl⟩
theorem sknp (x : RegIdx) : Statement (.sknp x) := ⟨by decide, covers_formatRF x _ rfl⟩
theorem ldVxDt (x : RegIdx) : Statement (.ldVxDt x) := ⟨by decide, covers_formatRF x _ rfl⟩
theorem ldVxK (x : RegIdx) : Statement (.ldVxK x) := ⟨by decide, covers_formatRF x _ rfl⟩
theorem ldDtVx (x : RegIdx) : Statement (.ldDtVx x) := ⟨by decide, covers_formatRF x _ rfl⟩
theorem addIVx (x : RegIdx) : Statement (.addIVx x) := ⟨by decide, covers_formatRF x _ rfl⟩
theorem ldVxMemi (x : RegIdx) : Statement (.ldVxMemi x) := ⟨by decide, covers_formatRF x _ rfl⟩
theorem unknown (w : Word) : Statement (.unknown w) := fun h => by simpa [Instr.wf, encode] using h

end EncodeInRow

end Sys2Proof.Laws
end

