-- ==== Sys2Proof/Tests/Slice0.lean ====
section
/-! SUPPORT. The model's own tests. Expected results come from the spec: words from 30_encoding.md (sections 3 and 6),
results from the vectors of 95_test_vectors.md (their numbers stand in the docstrings). The last part shows, for every
obligation with hypotheses, a concrete state and operands that meet them. -/

namespace Sys2Proof.Tests

open Sys2Proof Sys2Proof.Machine

/-! ## Helpers -/

/-- What a projection shows of the next state, if there is one. -/
def after {α : Type} (f : State → α) : Host.Outcome State Fault Refusal → Option α
  | .next t => some (f t)
  | .fault _ => none
  | .refused _ => none

/-- The reset state at another `pc`. -/
def atPc (pc : Word) : State := { State.reset with pc := pc }

/-- The reset state with one register set. -/
def withReg (x : RegIdx) (v : Byte) : State := State.reset.setReg x v

/-- The reset state with this memory and this `I`. -/
def withMem (m : Memory) (I : Word) : State := { State.reset with mem := m, I := I }

/-- The reset state with `n` live stack entries. -/
def withCount (n : Fin 16) : State := { State.reset with sp := n }

/-- The reset state with these inputs to come. -/
def withNext (i : Input) : State := State.reset.withInputs [i]

/-- A framebuffer with these pixels lit. -/
def lit (js : List Nat) : Framebuffer := js.foldl (fun fb j => fb ||| BitVec.twoPow 2048 j) 0

/-- The reset state over the sprite FF at 0x300, with V0 as the column. -/
def sprite (column : Byte) : State := (withMem [(0x300, 0xFF)] 0x300).setReg 0 column

/-! ## Well-formedness: an ill-formed term is refused -/

theorem test_wf_refuses_unknown_of_ret : (Instr.unknown 0x00EE).wf = false := by decide
theorem test_wf_refuses_unknown_of_copy : (Instr.unknown 0x8120).wf = false := by decide
theorem test_wf_refuses_unknown_of_register_load : (Instr.unknown 0xFF65).wf = false := by decide
theorem test_wf_accepts_unknown_of_clear_screen : (Instr.unknown 0x00E0).wf = true := by decide

/-! ## Decoding: one word a constructor, bit by bit from the table of 30_encoding.md section 3 -/

theorem test_decode_ret : decode 0b0000000011101110#16 = .ret := by decide
theorem test_decode_jp : decode 0b0001111111111110#16 = .jp 0xFFE := by decide
theorem test_decode_call : decode 0b0010001100000001#16 = .call 0x301 := by decide
theorem test_decode_se : decode 0b0011101001111111#16 = .se 10 0x7F := by decide
theorem test_decode_sne : decode 0b0100111100000001#16 = .sne 15 0x01 := by decide
theorem test_decode_ldVxKk : decode 0b0110000000000101#16 = .ldVxKk 0 0x05 := by decide
theorem test_decode_addVxKk : decode 0b0111001010000000#16 = .addVxKk 2 0x80 := by decide
theorem test_decode_ldVxVy : decode 0b1000000100100000#16 = .ldVxVy 1 2 := by decide
theorem test_decode_ldINnn : decode 0b1010001000001110#16 = .ldINnn 0x20E := by decide
theorem test_decode_drw : decode 0b1101000000010010#16 = .drw 0 1 2 := by decide
theorem test_decode_sknp : decode 0b1110000110100001#16 = .sknp 1 := by decide
theorem test_decode_ldVxDt : decode 0b1111000100000111#16 = .ldVxDt 1 := by decide
theorem test_decode_ldVxK : decode 0b1111000100001010#16 = .ldVxK 1 := by decide
theorem test_decode_ldDtVx : decode 0b1111101000010101#16 = .ldDtVx 10 := by decide
theorem test_decode_addIVx : decode 0b1111001000011110#16 = .addIVx 2 := by decide
theorem test_decode_ldVxMemi : decode 0b1111111101100101#16 = .ldVxMemi 15 := by decide
theorem test_decode_unknown : decode 0b1011001000000000#16 = .unknown 0xB200 := by decide

/-- Families 5, 9 and C, and the neighbours of the one-row families (vectors 2.1). -/
theorem test_decode_unknown_neighbours :
    [0x0000, 0x00EF, 0x0200, 0x5120, 0x812E, 0x9120, 0xC1FF, 0xE1A0, 0xF118, 0xF129, 0xF133, 0xF155, 0xF166].all
      (fun w : Word => decode w == .unknown w) = true := by decide

/-- `CALL 0x300` is stored as 23 00, and the bytes after it are left over. -/
theorem test_decode_bytes : decodeBytes [0x23, 0x00, 0xFF] = .ok (.call 0x300, [0xFF]) := by decide
theorem test_decode_bytes_truncated : decodeBytes [0x23] = .error .truncated := by decide
theorem test_decode_no_bytes : decodeBytes [] = .error .truncated := by decide
theorem test_encode_copy : encodeBytes (.ldVxVy 10 3) = [0x8A, 0x30] := by decide
theorem test_decode_table_word : decodeTableWord 16 0x2300 = some (.call 0x300) := by decide

/-! ## One instruction -/

/-- F1. -/
theorem test_ret :
    after (fun t => (t.sp, t.pc)) (exec .ret { withCount 2 with
      stack := ((Vector.replicate 15 0).set 0 0x0200).set 1 0x0310 }) = some (1, 0x0312) := by decide

/-- F2. -/
theorem test_ret_underflow :
    after (fun t => (t.haltCause.code, t.haltOpcode, t.pc, t.sp)) (exec .ret State.reset) =
      some (4, 0x00EE, 0x0200, 0) := by decide

/-- F4. -/
theorem test_jp : after (·.pc) (exec (decode 0x1ABC) State.reset) = some 0x0ABC := by decide

/-- F8. -/
theorem test_call :
    after (fun t => (t.stack.get 14, t.sp, t.pc)) (exec (decode 0x2400) { withCount 14 with pc := 0x0250 }) =
      some (0x0250, 15, 0x0400) := by decide

/-- F9. -/
theorem test_call_overflow :
    after (fun t => (t.haltCause.code, t.haltOpcode, t.pc, t.sp)) (exec (decode 0x2400) { withCount 15 with pc := 0x0250 }) =
      some (3, 0x2400, 0x0250, 15) := by decide

/-- F10, F11. -/
theorem test_se_taken : after (·.pc) (exec (decode 0x3342) (withReg 3 0x42)) = some 0x0204 := by decide
theorem test_se_not_taken : after (·.pc) (exec (decode 0x3343) (withReg 3 0x42)) = some 0x0202 := by decide

/-- F13, F14. -/
theorem test_sne_not_taken : after (·.pc) (exec (decode 0x4342) (withReg 3 0x42)) = some 0x0202 := by decide
theorem test_sne_taken : after (·.pc) (exec (decode 0x4300) (withReg 3 0x42)) = some 0x0204 := by decide

/-- A1. -/
theorem test_ldVxKk : after (·.reg 5) (exec (decode 0x65FF) (withReg 5 0x12)) = some 0xFF := by decide

/-- A3: no carry is recorded. A8: VF as the destination. -/
theorem test_addVxKk_wraps :
    after (fun t => (t.reg 2, t.reg 15)) (exec (decode 0x7201) ((withReg 2 0xFF).setReg 15 0x01)) =
      some (0x00, 0x01) := by decide
theorem test_addVxKk_to_flag : after (·.reg 15) (exec (decode 0x7F03) (withReg 15 0xFE)) = some 0x01 := by decide

/-- A9. -/
theorem test_ldVxVy :
    after (fun t => (t.reg 1, t.reg 2)) (exec (decode 0x8120) ((withReg 1 0x11).setReg 2 0x22)) =
      some (0x22, 0x22) := by decide

/-- A13. -/
theorem test_ldINnn : after (·.I) (exec (decode 0xAFFF) { State.reset with I := 0x1234 }) = some 0x0FFF := by decide

/-- G4: both axes wrap, and the events come in the sprite's order. -/
theorem test_drw_wraps :
    after (fun t => (t.fb, t.reg 15)) (exec (decode 0xD012)
      (((withMem [(0x300, 0xFF), (0x301, 0x81)] 0x300).setReg 0 60).setReg 1 31)) =
      some (lit [2044, 2045, 2046, 2047, 1984, 1985, 1986, 1987, 60, 3], 0x00) := by decide +kernel

/-- G13: the row is read from VF before VF is written. -/
theorem test_drw_reads_flag_first :
    after (fun t => (t.fb, t.reg 15, t.display)) (exec (decode 0xD0F1)
      { ((withMem [(0x300, 0x80)] 0x300).setReg 0 3).setReg 15 2 with fb := lit [131] }) =
      some (lit [], 0x01, [⟨3, 2, false⟩]) := by decide +kernel

/-- K5, K6. -/
theorem test_sknp_pressed :
    after (·.pc) (exec (decode 0xE1A1) { State.reset with keyPressed := true, keyCode := 0 }) = some 0x0202 := by decide
theorem test_sknp_whole_register :
    after (·.pc) (exec (decode 0xE1A1) { withReg 1 0x17 with keyPressed := true, keyCode := 7 }) = some 0x0204 := by decide

/-- K10. -/
theorem test_ldVxDt :
    after (fun t => (t.reg 3, t.DT)) (exec (decode 0xF307) { State.reset with DT := 0x2A }) = some (0x2A, 0x2A) := by decide

/-- K7, K8. -/
theorem test_ldVxK_waits :
    after (fun t => (t.reg 1, t.pc)) (exec (decode 0xF10A) { withReg 1 0x33 with pc := 0x020A }) =
      some (0x33, 0x020A) := by decide
theorem test_ldVxK_reads :
    after (fun t => (t.reg 1, t.pc)) (exec (decode 0xF10A)
      { withReg 1 0x33 with pc := 0x020A, keyPressed := true, keyCode := 15 }) = some (0x0F, 0x020C) := by decide

/-- K11. -/
theorem test_ldDtVx : after (·.DT) (exec (decode 0xF315) (withReg 3 0xFF)) = some 0xFF := by decide

/-- M2, M4. -/
theorem test_addIVx_past_memory :
    after (fun t => (t.I, t.reg 15, t.run)) (exec (decode 0xF01E) { withReg 0 0x01 with I := 0x0FFF }) =
      some (0x1000, 0x00, .running) := by decide
theorem test_addIVx_wraps : after (·.I) (exec (decode 0xF01E) { withReg 0 0xFF with I := 0xFF01 }) = some 0x0000 := by decide

/-- M7. -/
theorem test_ldVxMemi :
    after (fun t => ([0, 1, 2, 3].map t.reg, t.I)) (exec (decode 0xF265)
      ((withMem [(0x300, 1), (0x301, 2), (0x302, 3)] 0x300).setReg 3 0x99)) =
      some ([1, 2, 3, 0x99], 0x0300) := by decide

/-- M9. -/
theorem test_ldVxMemi_out_of_bounds :
    after (fun t => (t.haltCause.code, t.haltOpcode, t.reg 0, t.pc)) (exec (decode 0xFF65)
      { withReg 0 0x55 with I := 0x0FF1 }) = some (5, 0xFF65, 0x55, 0x0200) := by decide

/-- S7. -/
theorem test_unknown :
    after (fun t => (t.run, t.haltCause.code, t.haltOpcode, t.pc)) (exec (decode 0xFFFF) State.reset) =
      some (.halted, 2, 0xFFFF, 0x0200) := by decide

/-! ## One step -/

/-- Vectors 2.2: the byte at the lower address is the high one. -/
theorem test_step_fetches_high_byte_first :
    after (·.pc) (step { withNext (.cycle .noKey) with mem := [(0x200, 0x12), (0x201, 0x34)] }) = some 0x0234 := by decide

/-- Vectors 2.2: the bound is tested before the alignment. -/
theorem test_step_past_end :
    after (fun t => (t.haltCause.code, t.haltOpcode, t.pc)) (step { withNext (.cycle .noKey) with pc := 0x0FFF }) =
      some (5, 0x0000, 0x0FFF) := by decide
theorem test_step_odd :
    after (fun t => (t.haltCause.code, t.pc)) (step { withNext (.cycle .noKey) with pc := 0x0201 }) =
      some (6, 0x0201) := by decide

/-- S6: quit executes nothing. -/
theorem test_step_quit :
    after (fun t => (t.run, t.haltCause.code, t.pc)) (step { withNext (.cycle .quit) with pc := 0x0201 }) =
      some (.halted, 1, 0x0201) := by decide

/-- Tick (vectors 2.6): no wrap to 255. -/
theorem test_step_tick : after (·.DT) (step { withNext .tick with DT := 0xFF }) = some 0xFE := by decide
theorem test_step_tick_at_zero : after (·.DT) (step (withNext .tick)) = some 0x00 := by decide

/-- The word that withFetchWord places is run by the very next step. -/
theorem test_withFetchWord :
    after (fun t => (t.reg 0, t.pc)) (step (State.reset.withFetchWord 16 0x6005)) = some (0x05, 0x0202) := by decide

/-- S6: the key table. -/
theorem test_key_symbols :
    ['0', '9', 'a', 'f', 'q', 'A', 'g'].map keyOfSymbol =
      [.key 0, .key 9, .key 10, .key 15, .quit, .noKey, .noKey] := by decide

/-- R182: once Halted the host reads the key latch and a slot that is not live, and the live entries are none. -/
theorem test_snapshot_whole_state :
    (State.halt { State.reset with keyCode := 7, keyPressed := true, stack := State.reset.stack.set 14 0x0202 }
      .quit 0).snapshot.map (fun d => (d.keyCode, d.keyPressed, d.stack.get 14, d.stackContents)) =
      some (7, true, 0x0202, []) := by decide

/-- Vectors 2.8. -/
theorem test_launch_lengths :
    [0, 1, 3584, 3585].map (fun n => (launch [] (List.replicate n 0)).isSome) = [false, true, true, false] := by
  decide +kernel

/-! ## Witnesses: for every obligation with hypotheses, values that meet all of them together, at the boundaries -/

theorem witness_DecodeInvertsEncode :
    (Instr.drw 15 15 15).wf = true ∧ (Instr.unknown 0xFFFF).wf = true ∧ Instr.ret.wf = true := by decide

theorem witness_ReturnPopsAndContinuesAfterTheCall :
    (withCount 0).sp.val = 0 ∧ (0 < 15 ∧ (withCount 1).sp.val = 0 + 1) ∧ (14 < 15 ∧ (withCount 15).sp.val = 14 + 1) := by
  decide

theorem witness_CallPushesItsOwnAddressAndJumps : (withCount 0).sp.val < 15 ∧ (withCount 14).sp.val < 15 := by decide

theorem witness_StackOverflowChangesNothingElse : (withCount 15).sp.val = 15 := by decide

theorem witness_CallThenReturnComesBack :
    ∃ t u v : State, (withCount 14).sp.val < 15 ∧ exec (.call 0x300) (withCount 14) = .next t ∧
      u.stack = t.stack ∧ u.sp = t.sp ∧ u.pc ≠ t.pc ∧ exec .ret u = .next v :=
  ⟨{ withCount 15 with stack := (Vector.replicate 15 0).set 14 0x0200, pc := 0x0300 },
    { withCount 15 with stack := (Vector.replicate 15 0).set 14 0x0200, pc := 0x0ABC }, _, by decide, rfl, rfl, rfl,
    by decide, rfl⟩

theorem witness_AddImmediateWrapsAndKeepsTheFlag : (0 : RegIdx) ≠ 15 ∧ (14 : RegIdx) ≠ 15 := by decide

theorem witness_CopyWritesTheFirstRegister :
    [0x8121, 0x800F].all (fun w : Word => w.extractLsb' 12 4 == 0x8#4 && w.extractLsb' 0 4 != 0x0#4) = true := by decide

/-- Both bounds of the draw: no row at any `I`, and fifteen rows that end at the last byte. The last two parts meet the
premises of the two VF clauses. -/
theorem witness_DrawFlipsThePixelsUnderTheSprite :
    ((0 : RowCount).val = 0 ∧ (withMem [] 0xFFFF).I.toNat + (0 : RowCount).val = 0xFFFF) ∧
    (withMem [] 0x0FF1).I.toNat + (15 : RowCount).val = 0x1000 ∧
    (0 < (1 : RowCount).val ∧ 7 < 8 ∧ (sprite 60).spriteBitAt 0 7 = true ∧
      ({ sprite 60 with fb := lit [3] }).fb.getLsbD (spriteIndex ((sprite 60).reg 0) ((sprite 60).reg 1) 0 7) = true) ∧
    (∀ r c, r < (1 : RowCount).val → c < 8 → (sprite 60).spriteBitAt r c = true →
      (sprite 60).fb.getLsbD (spriteIndex ((sprite 60).reg 0) ((sprite 60).reg 1) r c) = false) := by
  refine ⟨by decide, by decide, by decide +kernel, fun r c _ _ _ => BitVec.getLsbD_zero⟩

theorem witness_DrawFlipsThePixelsUnderTheSprite_other_pixel :
    ∀ r c, r < (1 : RowCount).val → c < 8 → 4 ≠ spriteIndex ((sprite 60).reg 0) ((sprite 60).reg 1) r c := by
  have h : ∀ r, r < 1 → ∀ c, c < 8 → 4 ≠ spriteIndex ((sprite 60).reg 0) ((sprite 60).reg 1) r c := by decide
  exact fun r c hr hc => h r hr c hc

theorem witness_DrawOutOfBoundsHalts :
    (1 ≤ (1 : RowCount).val ∧ 0x0FFF < (withMem [] 0x1000).I.toNat + (1 : RowCount).val - 1) ∧
    (1 ≤ (15 : RowCount).val ∧ 0x0FFF < (withMem [] 0x0FF2).I.toNat + (15 : RowCount).val - 1) := by decide

theorem witness_DrawEmitsOneEventPerSetBit :
    (sprite 60).I.toNat + (1 : RowCount).val ≤ 0x1000 ∧ ∃ t, exec (.drw 0 1 1) (sprite 60) = .next t := ⟨by decide, _, rfl⟩

theorem witness_DrawingTwiceRestoresTheFramebuffer :
    (0 : RegIdx) ≠ 15 ∧ (1 : RegIdx) ≠ 15 ∧ (sprite 60).I.toNat + (1 : RowCount).val ≤ 0x1000 ∧
    ∃ t u, exec (.drw 0 1 1) (sprite 60) = .next t ∧ exec (.drw 0 1 1) t = .next u :=
  ⟨by decide, by decide, by decide, _, _, rfl, rfl⟩

theorem witness_WaitForKeyTakesAPressedKeyOrRepeats :
    ({ State.reset with keyPressed := true } : State).keyPressed = true ∧ State.reset.keyPressed = false := by decide

/-- A tick at 1 and a tick at 0. -/
theorem witness_WriteDelayTimerStartsTheCountdown :
    ∃ s s' t t' : State, (s.DT = 1 ∧ s.run = .running ∧ s.takeInput.1 = .tick ∧ step s = .next t) ∧
      (s'.DT = 0 ∧ s'.run = .running ∧ s'.takeInput.1 = .tick ∧ step s' = .next t') :=
  ⟨{ withNext .tick with DT := 1 }, withNext .tick, _, _, ⟨rfl, rfl, rfl, rfl⟩, rfl, rfl, rfl, rfl⟩

theorem witness_LoadRegistersFromMemoryInclusive :
    (withMem [] 0x0FF0).I.toNat + (15 : RegIdx).val = 0x0FFF ∧ (withMem [] 0x0FFF).I.toNat + (0 : RegIdx).val = 0x0FFF ∧
    (withMem [] 0x0FF1).I.toNat + (15 : RegIdx).val = 0x1000 ∧ (withMem [] 0xFFFF).I.toNat + (1 : RegIdx).val = 0x10000 ∧
    (3 : RegIdx) ≤ 3 ∧ (3 : RegIdx) < 4 := by decide

theorem witness_InstructionsHaltExactlyOnTheirFault :
    faultOf .ret (withCount 0) = some .stackUnderflow ∧ faultOf .ret (withCount 1) = none ∧
    faultOf (.call 0) (withCount 15) = some .stackOverflow ∧ faultOf (.call 0) (withCount 14) = none ∧
    faultOf (.drw 0 0 1) (withMem [] 0x1000) = some .outOfBoundsAccess ∧
    faultOf (.drw 0 0 0) (withMem [] 0xFFFF) = none ∧
    faultOf (.ldVxMemi 0) (withMem [] 0x1000) = some .outOfBoundsAccess ∧
    faultOf (.ldVxMemi 0) (withMem [] 0x0FFF) = none ∧
    faultOf (.unknown 0xFFFF) State.reset = some .unknownOpcode := by decide

theorem witness_EveryInstructionLeavesThePcItsRuleGives :
    ∃ t u : State, exec (.se 0 0) State.reset = .next t ∧ exec (.unknown 0xFFFF) State.reset = .next u := ⟨_, _, rfl, rfl⟩

theorem witness_OnlyNamedRegistersAreWritten :
    ∃ t u : State, (exec (.ldVxMemi 3) State.reset = .next t ∧ (Instr.ldVxMemi 3).writesReg 4 = false) ∧
      (exec (.drw 0 1 1) (sprite 60) = .next u ∧ (Instr.drw 0 1 1).writesReg 0 = false) :=
  ⟨_, _, ⟨rfl, by decide⟩, rfl, by decide⟩

/-- A register that is written and not read, and one that is neither. -/
theorem witness_OnlyNamedRegistersAreRead :
    ∃ t t' u u' : State, ((Instr.drw 0 1 1).readsReg 15 = false ∧ exec (.drw 0 1 1) (sprite 60) = .next t ∧
        exec (.drw 0 1 1) ((sprite 60).setReg 15 7) = .next t') ∧
      ((Instr.ldVxVy 1 2).readsReg 3 = false ∧ exec (.ldVxVy 1 2) State.reset = .next u ∧
        exec (.ldVxVy 1 2) (State.reset.setReg 3 7) = .next u') :=
  ⟨_, _, _, _, ⟨by decide, rfl, rfl⟩, by decide, rfl, rfl⟩

/-- A copy meets the premise of every clause at once. -/
theorem witness_SpecialStateIsWrittenOnlyByItsInstructions :
    ∃ t : State, exec (.ldVxVy 1 2) State.reset = .next t ∧
      (∀ nnn, Instr.ldVxVy 1 2 ≠ .ldINnn nnn) ∧ (∀ x, Instr.ldVxVy 1 2 ≠ .addIVx x) ∧
      (∀ x, Instr.ldVxVy 1 2 ≠ .ldDtVx x) ∧ (∀ x y n, Instr.ldVxVy 1 2 ≠ .drw x y n) ∧
      (∀ nnn, Instr.ldVxVy 1 2 ≠ .call nnn) ∧ Instr.ldVxVy 1 2 ≠ .ret ∧ faultOf (.ldVxVy 1 2) State.reset = none :=
  ⟨_, rfl, nofun, nofun, nofun, nofun, nofun, nofun, rfl⟩

theorem witness_StackCountIsWrittenByCallAndReturnOnly :
    ∃ t u : State, exec (.call 0x300) (withCount 14) = .next t ∧ exec .ret (withCount 1) = .next u := ⟨_, _, rfl, rfl⟩

theorem witness_OtherInstructionsDoNotReadMemory :
    ∃ t : State, (Instr.se 0 0).readsMem = false ∧ exec (.se 0 0) State.reset = .next t := ⟨_, by decide, rfl⟩

/-- The slot a push is about to overwrite, and the one a return has just left. -/
theorem witness_DeadStackSlotsHaveNoInfluence :
    ∃ t t' u u' : State,
      ((withCount 14).sp.val ≤ (14 : Fin 15).val ∧ exec (.call 0x300) (withCount 14) = .next t ∧
        exec (.call 0x300) { withCount 14 with stack := (withCount 14).stack.set 14 7 } = .next t') ∧
      ((withCount 1).sp.val ≤ (1 : Fin 15).val ∧ exec .ret (withCount 1) = .next u ∧
        exec .ret { withCount 1 with stack := (withCount 1).stack.set 1 7 } = .next u') :=
  ⟨_, _, _, _, ⟨by decide, rfl, rfl⟩, by decide, rfl, rfl⟩

/-- The last fetchable address with no key, and the first with a key. -/
theorem witness_StepRunsTheDecodedInstruction :
    ∃ s s' : State,
      (s.run = .running ∧ s.pc.toNat = 0x0FFE ∧ s.pc.toNat % 2 = 0 ∧
        decodeBytes [s.mem.read s.pc.toNat, s.mem.read (s.pc.toNat + 1)] = .ok (.jp 0xFFE, []) ∧
        s.takeInput.1 = .cycle .noKey) ∧
      (s'.run = .running ∧ s'.pc.toNat = 0 ∧ s'.pc.toNat % 2 = 0 ∧
        decodeBytes [s'.mem.read s'.pc.toNat, s'.mem.read (s'.pc.toNat + 1)] = .ok (.ret, []) ∧
        s'.takeInput.1 = .cycle (.key 15)) :=
  ⟨{ withNext (.cycle .noKey) with pc := 0x0FFE, mem := [(0xFFE, 0x1F), (0xFFF, 0xFE)] },
    { withNext (.cycle (.key 15)) with pc := 0, mem := [(1, 0xEE)] },
    ⟨by decide, by decide, by decide, by decide, by decide⟩, by decide, by decide, by decide, by decide, by decide⟩

/-- 0x0FFF and 0x1000 are past the end, 0x0001 and 0x0FFD are odd. -/
theorem witness_UnfetchablePcHalts :
    (KeySample.key 3 ≠ .quit ∧ (withNext (.cycle (.key 3))).run = .running ∧
      ∀ a, ({ withNext (.cycle (.key 3)) with pc := a } : State).takeInput.1 = .cycle (.key 3)) ∧
    [0x0FFF, 0x1000].all (fun a => decide (0x0FFE < (atPc a).pc.toNat)) = true ∧
    [0x0001, 0x0FFD].all (fun a => decide ((atPc a).pc.toNat ≤ 0x0FFE) && (atPc a).pc.toNat % 2 == 1) = true :=
  ⟨⟨by decide, rfl, fun _ => rfl⟩, by decide, by decide⟩

theorem witness_QuitHaltsBeforeAnythingElse :
    (withNext (.cycle .quit)).run = .running ∧ (withNext (.cycle .quit)).takeInput.1 = .cycle .quit := by decide

theorem witness_TickCountsTheTimersDown :
    (withNext .tick).run = .running ∧ (withNext .tick).takeInput.1 = .tick := by decide

theorem witness_RunningToHaltedIsTheOnlyTransition :
    (State.reset.halt .quit 0).run = .halted ∧ State.reset.run = .running := by decide

/-- One input for each of the four ways: quit, an Unknown word, a wait without a key, and a jump. -/
theorem witness_CycleEndsInOneOfFourWays :
    ((withNext (.cycle .quit)).run = .running ∧ (withNext (.cycle .quit)).takeInput.1 = .cycle .quit) ∧
    ((withNext (.cycle .noKey)).takeInput.1 = .cycle .noKey ∧ decode (withNext (.cycle .noKey)).wordAtPc = .unknown 0) ∧
    (decode (State.reset.withFetchWord 16 0xF10A).wordAtPc = .ldVxK 1 ∧
      (State.reset.withFetchWord 16 0xF10A).takeInput.1 = .cycle .noKey) ∧
    (decode (State.reset.withFetchWord 16 0x1200).wordAtPc = .jp 0x200 ∧
      (State.reset.withFetchWord 16 0x1200).run = .running) := by decide

theorem witness_NoStepWritesMemory : ∃ t : State, step (State.reset.withFetchWord 16 0x6005) = .next t := ⟨_, rfl⟩

/-- A tick changes the timer, and so does a Fx15. -/
theorem witness_DelayTimerChangesByTickOrLoadOnly :
    ∃ s s' t t' : State, (step s = .next t ∧ t.DT ≠ s.DT) ∧ (step s' = .next t' ∧ t'.DT ≠ s'.DT) :=
  ⟨{ withNext .tick with DT := 1 }, (withReg 10 2).withFetchWord 16 0xFA15, _, _, ⟨rfl, by decide⟩, rfl, by decide⟩

/-- A cycle without a key, and one with a key. -/
theorem witness_KeyLatchIsAnInputOfItsCycle :
    ∃ t t' u u' : State, (State.reset.withFetchWord 16 0xE1A1).takeInput.1 = .cycle .noKey ∧ KeySample.noKey ≠ .quit ∧
      step (State.reset.withFetchWord 16 0xE1A1) = .next t ∧
      step { State.reset.withFetchWord 16 0xE1A1 with keyCode := 5, keyPressed := true } = .next t' ∧
      (withNext (.cycle (.key 0))).takeInput.1 = .cycle (.key 0) ∧ KeySample.key 0 ≠ .quit ∧ KeySample.key 0 ≠ .noKey ∧
      step (withNext (.cycle (.key 0))) = .next u ∧
      step { withNext (.cycle (.key 0)) with keyCode := 5, keyPressed := true } = .next u' :=
  ⟨_, _, _, _, by decide, by decide, rfl, rfl, by decide, by decide, by decide, rfl, rfl⟩

theorem witness_PlacedWordRunsNext :
    ∃ s : State, s.run = .running ∧ s.pc.toNat = 0x0FFE ∧ s.pc.toNat % 2 = 0 ∧ s.mem.wf = true ∧ s.mem ≠ [] :=
  ⟨{ atPc 0x0FFE with mem := [(0x0FFF, 0x01)] }, by decide, by decide, by decide, by decide, by decide⟩

/-- The shortest image, the longest, and the first that is too long. -/
theorem witness_LoaderCopiesTheImageTo0x200 :
    State.reset.mem.wf = true ∧ 1 ≤ [(0x60 : Byte)].length ∧ [(0x60 : Byte)].length ≤ 3584 ∧
    (List.replicate 3584 (0 : Byte)).length ≤ 3584 ∧ 4096 - 0x200 < (List.replicate 3585 (0 : Byte)).length ∧
    (0 < [(0x60 : Byte)].length) ∧ (0x1FF < 0x200 ∨ 0x200 + [(0x60 : Byte)].length ≤ 0x1FF) ∧
    (0x201 < 0x200 ∨ 0x200 + [(0x60 : Byte)].length ≤ 0x201) := by
  simp only [List.length_replicate]; decide

theorem witness_LaunchIsResetWithTheImage :
    ∃ (m : Memory) (b : List Byte) (t : State), m.wf = true ∧ launch m b = some t ∧
      (0x200 ≤ 0x200 ∧ 0x200 < 0x200 + b.length) ∧ m.read 0x1FF ≠ 0 :=
  ⟨[(0x1FF, 0xAA), (0x200, 0xBB)], [0x60, 0x05], _, by decide, rfl, by decide, by decide⟩

theorem witness_SnapshotShowsTheHaltedState :
    State.reset.run = .running ∧ ((withCount 15).halt .quit 0).run = .halted ∧ 14 < ((withCount 15).halt .quit 0).sp.val := by
  decide

theorem witness_KeyTableMapsItsSymbolsOnly :
    (0 < 10 ∧ 9 < 10 ∧ 0 < 6 ∧ 5 < 6) ∧
    ['/', ':', '`', 'g', 'A', 'F', 'Q'].all (fun c : Char =>
      !decide (48 ≤ c.toNat ∧ c.toNat ≤ 57) && !decide (97 ≤ c.toNat ∧ c.toNat ≤ 102) && c != 'q') = true := by decide

theorem witness_ResetMeetsTheInvariant : Memory.wf [] = true ∧ Memory.wf [(0, 1), (0xFFF, 0xFF)] = true := by decide

/-- A state that meets the invariant with one entry on the stack, and goes on. -/
theorem witness_EveryStepKeepsTheInvariant :
    ∃ s t : State, s.Inv ∧ step s = .next t :=
  ⟨{ (withCount 1).withFetchWord 16 0x00EE with stack := (Vector.replicate 15 0).set 0 0x0FFE }, _,
    { mem_wf := by decide
      pc_le := by decide
      stack_fetchable := by unfold slotFetchable; decide
      st_zero := rfl
      halt_record := ⟨rfl, rfl⟩ }, rfl⟩

end Sys2Proof.Tests
end

section
/-! PROOFS for the scope family (00_scope.md R10): what one instruction, one fetch and one cycle can answer, and from
that the four ways a cycle ends. -/

namespace Sys2Proof.Machine

/-! ## An instruction against the fault table -/

/-- The fault table names the five faults, never the empty record nor the quit input (R160). -/
theorem faultOf_isFault {i : Instr} {s : State} {c : HaltCause} (h : faultOf i s = some c) :
    c ≠ .none ∧ c ≠ .quit := by
  cases i <;> simp only [faultOf, Option.ite_none_right_eq_some, Option.some.injEq, reduceCtorEq] at h
  case unknown w => subst h; decide
  all_goals
    obtain ⟨-, rfl⟩ := h
    decide

/-- An instruction whose fault condition holds halts, and writes the halt record only (R170). -/
theorem exec_of_faultOf_some {i : Instr} {s : State} {c : HaltCause} (h : faultOf i s = some c) :
    exec i s = .next (s.halt c (encode i)) := by
  cases i <;> simp only [faultOf, Option.ite_none_right_eq_some, Option.some.injEq, reduceCtorEq] at h
  case ret =>
    obtain ⟨hsp, rfl⟩ := h
    simp only [exec, execRet, State.pop_of_empty hsp, State.raise_eq_halt]
  case call nnn =>
    obtain ⟨hsp, rfl⟩ := h
    simp only [exec, execCall, State.push_of_full _ hsp, State.raise_eq_halt]
  case drw x y n =>
    obtain ⟨hI, rfl⟩ := h
    have hout : indexedOperand s n.val = none := indexedOperand_eq_none.2 (by simp only [Config.memSize]; omega)
    simp only [exec, execDrw, hout, State.raise_eq_halt]
  case ldVxMemi x =>
    obtain ⟨hI, rfl⟩ := h
    have hout : indexedOperand s (x.val + 1) = none := indexedOperand_eq_none.2 (by simp only [Config.memSize]; omega)
    simp only [exec, execLdVxMemi, hout, State.raise_eq_halt]
  case unknown w => subst h; rfl

/-- `t` keeps the run state and the halt record of `s`, and its `pc` is where the rule of `i` puts it (R27). -/
structure CompletedAs (i : Instr) (s t : State) : Prop where
  run : t.run = s.run
  haltCause : t.haltCause = s.haltCause
  haltOpcode : t.haltOpcode = s.haltOpcode
  pc : t.pc = pcAfter i s

/-- R100, off the underflow of R163. -/
theorem execRet_completes {s : State} (h : 0 < s.sp.val) : ∃ t, execRet s = .next t ∧ CompletedAs .ret s t := by
  have hpop := State.pop_of_count (s := s) (n := s.sp.val - 1) (by omega) (by omega)
  simp only [execRet, hpop]
  exact ⟨_, rfl, rfl, rfl, rfl, by simp [pcAfter, h]⟩

/-- R102, off the overflow of R162. -/
theorem execCall_completes {s : State} (nnn : Addr12) (h : s.sp.val < 15) :
    ∃ t, execCall nnn s = .next t ∧ CompletedAs (.call nnn) s t := by
  simp only [execCall, State.push_of_room _ h]
  exact ⟨_, rfl, rfl, rfl, rfl, rfl⟩

/-- R120, off the fault of R125; an empty sprite is never out of bounds (R127). -/
theorem execDrw_completes {s : State} (x y : RegIdx) (n : RowCount)
    (h : n.val = 0 ∨ s.I.toNat + n.val ≤ Config.memSize) :
    ∃ t, execDrw x y n s = .next t ∧ CompletedAs (.drw x y n) s t := by
  simp only [execDrw, indexedOperand_eq_some.2 ⟨h, rfl⟩]
  exact ⟨_, rfl, rfl, rfl, rfl, rfl⟩

/-- R141, off the fault of R164. -/
theorem execLdVxMemi_completes {s : State} (x : RegIdx) (h : s.I.toNat + (x.val + 1) ≤ Config.memSize) :
    ∃ t, execLdVxMemi x s = .next t ∧ CompletedAs (.ldVxMemi x) s t := by
  simp only [execLdVxMemi, indexedOperand_eq_some.2 ⟨.inr h, rfl⟩]
  exact ⟨_, rfl, by simp, by simp, by simp, by simp [pcAfter]⟩

/-- The one argument of the three skips (R103, R104, R130): only the distance depends on the condition. -/
theorem skipIf_completes {i : Instr} {s : State} {c : Bool} (h : s.pc + (if c then 4 else 2) = pcAfter i s) :
    CompletedAs i s (s.skipIf c) := by
  rw [State.skipIf_eq_advance]
  exact ⟨rfl, rfl, rfl, h⟩

/-- R132: the wait without a key completes too, at the same `pc`. -/
theorem execLdVxK_completes (x : RegIdx) (s : State) :
    ∃ t, execLdVxK x s = .next t ∧ CompletedAs (.ldVxK x) s t := by
  unfold execLdVxK
  split <;> exact ⟨_, rfl, rfl, rfl, rfl, by simp [pcAfter, *]⟩

/-- Together with `exec_of_faultOf_some`: every instruction answers a next state in every state. -/
theorem exec_of_faultOf_none {i : Instr} {s : State} (h : faultOf i s = none) :
    ∃ t, exec i s = .next t ∧ CompletedAs i s t := by
  have hI := s.I.isLt
  have hsp := s.sp.isLt
  cases i <;> simp only [faultOf, ite_eq_right_iff, reduceCtorEq, imp_false] at h
  case ret => exact execRet_completes (by omega)
  case call nnn => exact execCall_completes nnn (by omega)
  case drw x y n => exact execDrw_completes x y n (by simp only [Config.memSize]; omega)
  case ldVxMemi x => exact execLdVxMemi_completes x (by simp only [Config.memSize]; omega)
  case se x kk | sne x kk =>
    exact ⟨_, rfl, skipIf_completes (by simp [pcAfter, equalsImm, regOperand, immOperand, apply_ite])⟩
  case sknp x => exact ⟨_, rfl, skipIf_completes (by simp [pcAfter, ← keyMatches_iff, apply_ite])⟩
  case ldVxK x => exact execLdVxK_completes x s
  all_goals exact ⟨_, rfl, rfl, rfl, rfl, rfl⟩

/-! ## The wait for a key -/

/-- `Fx0A` with no key pressed writes nothing (R132). -/
theorem exec_ldVxK_waiting {x : RegIdx} {s : State} (h : s.keyPressed = false) : exec (.ldVxK x) s = .next s := by
  simp [exec, execLdVxK, h]

/-! ## One cycle -/

@[simp] theorem State.fetchable_refreshKey (s : State) (k : KeySample) :
    (s.refreshKey k).fetchable ↔ s.fetchable := by
  simp [State.fetchable]

@[simp] theorem State.fetchable_takeInput (s : State) : s.takeInput.2.fetchable ↔ s.fetchable := by
  simp [State.fetchable]

/-- A `pc` that cannot be fetched from halts with a fault of the fetch (R53, R54). -/
theorem fetchDecodeExecute_of_not_fetchable {s : State} (h : ¬s.fetchable) :
    ∃ c : HaltCause, (c ≠ .none ∧ c ≠ .quit) ∧ fetchDecodeExecute s = .next (s.halt c 0) := by
  by_cases hp : 0x0FFE < s.pc.toNat
  · exact ⟨.outOfBoundsAccess, by decide, by rw [fetchDecodeExecute, State.fetch_past_end hp]; rfl⟩
  · have hodd : s.pc.toNat % 2 = 1 := by
      simp only [State.fetchable, not_and] at h
      have := h (by omega)
      omega
    exact ⟨.misalignedFetch, by decide, by rw [fetchDecodeExecute, State.fetch_odd (by omega) hodd]; rfl⟩

/-- All that fetch, decode and execute can answer: a fault of the fetch or of the instruction, or the instruction
completes. -/
theorem fetchDecodeExecute_cases (s : State) :
    (∃ (c : HaltCause) (w : Word), (c ≠ .none ∧ c ≠ .quit) ∧ fetchDecodeExecute s = .next (s.halt c w)) ∨
    (s.fetchable ∧ ∃ t, fetchDecodeExecute s = .next t ∧ exec (decode s.wordAtPc) s = .next t ∧
      CompletedAs (decode s.wordAtPc) s t) := by
  by_cases hf : s.fetchable
  · rw [fetchDecodeExecute_of_fetchable hf]
    cases hfault : faultOf (decode s.wordAtPc) s with
    | some c => exact .inl ⟨c, _, faultOf_isFault hfault, exec_of_faultOf_some hfault⟩
    | none =>
      obtain ⟨t, ht, hdone⟩ := exec_of_faultOf_none hfault
      exact .inr ⟨hf, t, ht, ht, hdone⟩
  · obtain ⟨c, hc, hstep⟩ := fetchDecodeExecute_of_not_fetchable hf
    exact .inl ⟨c, 0, hc, hstep⟩

/-- The step of a Running machine on a cycle that does not quit. -/
theorem step_of_cycle {s : State} {k : KeySample} (hr : s.run = .running) (hi : s.takeInput.1 = .cycle k)
    (hk : k ≠ .quit) : step s = fetchDecodeExecute (s.takeInput.2.refreshKey k) := by
  rw [step_running hr, hi, runInput, cycle_eq hk]

/-- Settles O40, by what fetch, decode and execute can answer after the key refresh. -/
theorem cycleEndsInOneOfFourWays : Obligations.CycleEndsInOneOfFourWays := by
  intro s k hr hi
  by_cases hk : k = .quit
  · subst hk
    exact ⟨s.takeInput.2.halt .quit 0, by rw [step_running hr, hi]; rfl, .inl ⟨rfl, rfl, rfl, by simp⟩⟩
  rw [step_of_cycle hr hi hk]
  rcases fetchDecodeExecute_cases (s.takeInput.2.refreshKey k) with
    ⟨c, w, ⟨hnone, hquit⟩, hstep⟩ | ⟨hf, t, hstep, hexec, hdone⟩
  · exact ⟨_, hstep, .inr (.inl ⟨hk, rfl, hnone, hquit, by simp⟩)⟩
  · simp only [State.fetchable_refreshKey, State.fetchable_takeInput, State.wordAtPc_refreshKey,
      State.wordAtPc_takeInput] at hf hexec hdone
    have hrun : t.run = .running := by simpa [hr] using hdone.run
    refine ⟨t, hstep, .inr (.inr ?_)⟩
    by_cases hwait : (∃ x, decode s.wordAtPc = .ldVxK x) ∧ k = .noKey
    · obtain ⟨⟨x, hx⟩, rfl⟩ := hwait
      rw [hx, exec_ldVxK_waiting rfl] at hexec
      cases hexec
      exact .inl ⟨hk, hrun, hf, ⟨x, hx⟩, rfl, rfl⟩
    · exact .inr ⟨hk, hrun, hf, hwait, hdone.pc⟩

end Sys2Proof.Machine
end

section
/-! PROOFS for the state family (10_state.md R23, R27, R32): where an executed instruction leaves `pc`, what moves the
stack count, and the registers at reset. -/

namespace Sys2Proof.Machine

/-! ## What an executed instruction can answer -/

/-- Either the fault table names a fault, and the instruction halts with it, or the instruction completes. -/
theorem exec_cases {i : Instr} {s t : State} (h : exec i s = .next t) :
    (∃ c, faultOf i s = some c ∧ t = s.halt c (encode i)) ∨ (faultOf i s = none ∧ CompletedAs i s t) := by
  cases hfault : faultOf i s with
  | some c =>
    rw [exec_of_faultOf_some hfault] at h
    cases h
    exact .inl ⟨c, rfl, rfl⟩
  | none =>
    obtain ⟨u, hu, hdone⟩ := exec_of_faultOf_none hfault
    rw [hu] at h
    cases h
    exact .inr ⟨rfl, hdone⟩

/-- Settles O28: a fault halts and keeps `pc`, a completed instruction leaves it where its rule says. -/
theorem everyInstructionLeavesThePcItsRuleGives : Obligations.EveryInstructionLeavesThePcItsRuleGives := by
  intro i s t h
  rcases exec_cases h with ⟨c, hfault, rfl⟩ | ⟨hfault, hdone⟩
  · simp [hfault]
  · rw [if_pos hfault, hdone.pc]

/-! ## The stack count -/

/-- R100, off the underflow of R163: one entry is taken. -/
theorem execRet_sp {s t : State} (hsp : 0 < s.sp.val) (h : execRet s = .next t) : t.sp.val + 1 = s.sp.val := by
  have hpop := State.pop_of_count (s := s) (n := s.sp.val - 1) (by omega) (by omega)
  simp only [execRet, hpop] at h
  cases h
  exact Nat.sub_add_cancel hsp

/-- R102, off the overflow of R162: one entry is added. -/
theorem execCall_sp {s t : State} {nnn : Addr12} (hsp : s.sp.val < 15) (h : execCall nnn s = .next t) :
    t.sp.val = s.sp.val + 1 := by
  simp only [execCall, State.push_of_room _ hsp] at h
  cases h
  rfl

/-- R32: an instruction other than the call and the return keeps the count. -/
theorem exec_keeps_sp {i : Instr} {s t : State} (hret : i ≠ .ret) (hcall : ∀ nnn, i ≠ .call nnn)
    (h : exec i s = .next t) : t.sp = s.sp := by
  cases i <;> simp only [exec] at h
  case ret => exact absurd rfl hret
  case call nnn => exact absurd rfl (hcall nnn)
  case se x kk | sne x kk | sknp x =>
    cases h
    simp [State.skipIf_eq_advance]
  case drw x y n =>
    unfold execDrw at h
    split at h <;> cases h <;> simp
  case ldVxMemi x =>
    unfold execLdVxMemi at h
    split at h <;> cases h <;> simp
  case ldVxK x =>
    unfold execLdVxK at h
    split at h <;> cases h <;> simp
  all_goals
    cases h
    rfl

/-- Settles O32: a fault keeps the count, and among the completed instructions only the call and the return move it. -/
theorem stackCountIsWrittenByCallAndReturnOnly : Obligations.StackCountIsWrittenByCallAndReturnOnly := by
  refine ⟨rfl, fun s => ⟨Nat.le_of_lt_succ s.sp.isLt, s.length_liveStack⟩, State.tick_sp, fun i s t h => ?_⟩
  rcases exec_cases h with ⟨c, -, rfl⟩ | ⟨hfault, -⟩
  · exact .inl (by simp)
  have hlt := s.sp.isLt
  by_cases hret : i = .ret
  · subst hret
    have hsp : s.sp.val ≠ 0 := by simpa [faultOf] using hfault
    exact .inr (.inr ⟨rfl, execRet_sp (by omega) h⟩)
  by_cases hcall : ∃ nnn, i = .call nnn
  · obtain ⟨nnn, rfl⟩ := hcall
    have hsp : s.sp.val ≠ 15 := by simpa [faultOf] using hfault
    exact .inr (.inl ⟨nnn, rfl, execCall_sp (by omega) h⟩)
  · exact .inl (exec_keeps_sp hret (not_exists.1 hcall) h)

/-! ## The registers at reset -/

/-- R23, R45: the reset state holds sixteen zero bytes. -/
@[simp] theorem State.reg_reset (x : RegIdx) : State.reset.reg x = 0x00 := by
  simp [State.reg, State.reset, Vector.get_eq_getElem]

/-- The contents of memory given to a reset leave its registers as they are. -/
@[simp] theorem State.reg_resetWith (m : Memory) (x : RegIdx) : (State.resetWith m).reg x = State.reset.reg x := rfl

/-- Settles O45: the reset state reads 0 in every register, whatever the memory. -/
theorem registersAreZeroAfterReset : Obligations.RegistersAreZeroAfterReset := fun m x =>
  ⟨(State.reg_resetWith m x).trans (State.reg_reset x), State.reg_reset x⟩

end Sys2Proof.Machine
end

section
/-! PROOFS for the encoding family (30_encoding.md R76): the rows of the opcode table against the decoder. From a row to
the instruction goes through the fields its mask keeps; back goes through the encoder, which undoes the decoder and puts
every instruction in its own row. -/

namespace Sys2Proof.Laws

/-! ## The encoder undoes the decoder -/

/-- Format A with the word's own address is the word, when `f` is its family (R73). -/
theorem formatA_of_family {w : Word} {f : BitVec 4} (hf : fieldF w = f.toNat) : formatA f (fieldNnn w) = w := by
  obtain rfl : w.extractLsb' 12 4 = f := BitVec.eq_of_toNat_eq hf
  exact formatA_fields w

/-- Formats RI and RF, likewise; the low byte may be given as the function byte that it is (R73). -/
theorem formatRI_of_family {w : Word} {f : BitVec 4} {kk : Byte} (hf : fieldF w = f.toNat) (hkk : fieldKk w = kk) :
    formatRI f (fieldX w) kk = w := by
  obtain rfl : w.extractLsb' 12 4 = f := BitVec.eq_of_toNat_eq hf
  subst hkk
  exact formatRI_fields w

/-- Formats RR and RRN, likewise; the low nibble may be given as the function code that it is (R73). -/
theorem formatRRN_of_family {w : Word} {f : BitVec 4} {n : RowCount} (hf : fieldF w = f.toNat) (hn : fieldN w = n) :
    formatRRN f (fieldX w) (fieldY w) n = w := by
  obtain rfl : w.extractLsb' 12 4 = f := BitVec.eq_of_toNat_eq hf
  subst hn
  exact formatRRN_fields w

theorem encode_decodeFamily0 (w : Word) : encode (decodeFamily0 w) = w := by
  unfold decodeFamily0
  split
  case isTrue hw => exact hw.symm
  case isFalse => rfl

theorem encode_decodeFamily8 {w : Word} (hf : fieldF w = 0x8) : encode (decodeFamily8 w) = w := by
  unfold decodeFamily8
  split
  case isTrue hn => exact formatRRN_of_family hf hn
  case isFalse => rfl

theorem encode_decodeFamilyE {w : Word} (hf : fieldF w = 0xE) : encode (decodeFamilyE w) = w := by
  unfold decodeFamilyE
  split
  case isTrue hkk => exact formatRI_of_family hf hkk
  case isFalse => rfl

theorem encode_decodeFamilyF {w : Word} (hf : fieldF w = 0xF) : encode (decodeFamilyF w) = w := by
  unfold decodeFamilyF
  split_ifs with hDt hK hSetDt hAddI hLoad
  case neg => rfl
  all_goals exact formatRI_of_family hf ‹_›

/-- R81: the encoder gives back the word that was decoded. -/
theorem encode_decode (w : Word) : encode (decode w) = w := by
  unfold decode
  split
  case h_1 => exact encode_decodeFamily0 w
  case h_2 hf | h_3 hf | h_9 hf => exact formatA_of_family hf
  case h_4 hf | h_5 hf | h_6 hf | h_7 hf => exact formatRI_of_family hf rfl
  case h_8 hf => exact encode_decodeFamily8 hf
  case h_10 hf => exact formatRRN_of_family hf rfl
  case h_11 hf => exact encode_decodeFamilyE hf
  case h_12 hf => exact encode_decodeFamilyF hf
  case h_13 => rfl

/-! ## From the instruction to its row -/

/-- The encoder puts every instruction in its own row of the table. -/
theorem encodeInRow (i : Instr) : EncodeInRow.Statement i := by
  cases i with
  | ret => exact EncodeInRow.ret
  | jp nnn => exact EncodeInRow.jp nnn
  | call nnn => exact EncodeInRow.call nnn
  | se x kk => exact EncodeInRow.se x kk
  | sne x kk => exact EncodeInRow.sne x kk
  | ldVxKk x kk => exact EncodeInRow.ldVxKk x kk
  | addVxKk x kk => exact EncodeInRow.addVxKk x kk
  | ldVxVy x y => exact EncodeInRow.ldVxVy x y
  | ldINnn nnn => exact EncodeInRow.ldINnn nnn
  | drw x y n => exact EncodeInRow.drw x y n
  | sknp x => exact EncodeInRow.sknp x
  | ldVxDt x => exact EncodeInRow.ldVxDt x
  | ldVxK x => exact EncodeInRow.ldVxK x
  | ldDtVx x => exact EncodeInRow.ldDtVx x
  | addIVx x => exact EncodeInRow.addIVx x
  | ldVxMemi x => exact EncodeInRow.ldVxMemi x
  | unknown w => exact EncodeInRow.unknown w

/-- A word lies in the row of the instruction it decodes to. -/
theorem covers_of_rowOf_decode {w : Word} {r : OpcodeRow} (hr : rowOf (decode w) = some r) :
    r ∈ opcodeRows ∧ r.covers w = true := by
  have h := encodeInRow (decode w)
  rw [EncodeInRow.Statement, hr, encode_decode] at h
  exact h

/-! ## From the row to the instruction -/

/-- A row that fixes the family only. -/
theorem fieldF_of_mask {w p : Word} {f : Nat} (h : w &&& 0xF000#16 = p) (hp : p.toNat = f * 4096) :
    fieldF w = f := by
  have hw := and_F000 w
  rw [h] at hw
  omega

/-- A row that fixes the family and the low nibble. -/
theorem fieldF_fieldN_of_mask {w p : Word} {f : Nat} {n : RowCount} (h : w &&& 0xF00F#16 = p)
    (hp : p.toNat = f * 4096 + n.val) : fieldF w = f ∧ fieldN w = n := by
  have hw := and_F00F w
  rw [h] at hw
  exact ⟨by omega, Fin.ext (by omega)⟩

/-- A row that fixes the family and the low byte. -/
theorem fieldF_fieldKk_of_mask {w p : Word} {f : Nat} {kk : Byte} (h : w &&& 0xF0FF#16 = p)
    (hp : p.toNat = f * 4096 + kk.toNat) : fieldF w = f ∧ fieldKk w = kk := by
  have hw := and_F0FF w
  rw [h] at hw
  have := kk.isLt
  have := (fieldKk w).isLt
  exact ⟨by omega, BitVec.eq_of_toNat_eq (by omega)⟩

section
variable {w : Word}

theorem decode_ret (h : w &&& 0xFFFF#16 = 0x00EE#16) : decode w = .ret := by
  obtain rfl : w = 0x00EE#16 := (BitVec.and_allOnes (x := w)).symm.trans h
  rfl

theorem decode_jp (h : w &&& 0xF000#16 = 0x1000#16) : decode w = .jp (fieldNnn w) := by
  simp only [decode, fieldF_of_mask (f := 0x1) h rfl]

theorem decode_call (h : w &&& 0xF000#16 = 0x2000#16) : decode w = .call (fieldNnn w) := by
  simp only [decode, fieldF_of_mask (f := 0x2) h rfl]

theorem decode_se (h : w &&& 0xF000#16 = 0x3000#16) : decode w = .se (fieldX w) (fieldKk w) := by
  simp only [decode, fieldF_of_mask (f := 0x3) h rfl]

theorem decode_sne (h : w &&& 0xF000#16 = 0x4000#16) : decode w = .sne (fieldX w) (fieldKk w) := by
  simp only [decode, fieldF_of_mask (f := 0x4) h rfl]

theorem decode_ldVxKk (h : w &&& 0xF000#16 = 0x6000#16) : decode w = .ldVxKk (fieldX w) (fieldKk w) := by
  simp only [decode, fieldF_of_mask (f := 0x6) h rfl]

theorem decode_addVxKk (h : w &&& 0xF000#16 = 0x7000#16) : decode w = .addVxKk (fieldX w) (fieldKk w) := by
  simp only [decode, fieldF_of_mask (f := 0x7) h rfl]

theorem decode_ldVxVy (h : w &&& 0xF00F#16 = 0x8000#16) : decode w = .ldVxVy (fieldX w) (fieldY w) := by
  obtain ⟨hf, hn⟩ := fieldF_fieldN_of_mask (f := 0x8) (n := 0) h rfl
  simp only [decode, hf, decodeFamily8, hn, if_true]

theorem decode_ldINnn (h : w &&& 0xF000#16 = 0xA000#16) : decode w = .ldINnn (fieldNnn w) := by
  simp only [decode, fieldF_of_mask (f := 0xA) h rfl]

theorem decode_drw (h : w &&& 0xF000#16 = 0xD000#16) : decode w = .drw (fieldX w) (fieldY w) (fieldN w) := by
  simp only [decode, fieldF_of_mask (f := 0xD) h rfl]

theorem decode_sknp (h : w &&& 0xF0FF#16 = 0xE0A1#16) : decode w = .sknp (fieldX w) := by
  obtain ⟨hf, hkk⟩ := fieldF_fieldKk_of_mask (f := 0xE) (kk := 0xA1#8) h rfl
  simp only [decode, hf, decodeFamilyE, hkk, if_true]

/-- The rows of family F: the function byte chooses the instruction. -/
theorem decode_familyF {p : Word} {kk : Byte} (h : w &&& 0xF0FF#16 = p) (hp : p.toNat = 0xF * 4096 + kk.toNat) :
    decode w = decodeFamilyF w ∧ fieldKk w = kk := by
  obtain ⟨hf, hkk⟩ := fieldF_fieldKk_of_mask h hp
  exact ⟨by simp only [decode, hf], hkk⟩

theorem decode_ldVxDt (h : w &&& 0xF0FF#16 = 0xF007#16) : decode w = .ldVxDt (fieldX w) := by
  obtain ⟨hdec, hkk⟩ := decode_familyF (kk := 0x07#8) h rfl
  rw [hdec, decodeFamilyF, hkk]; rfl

theorem decode_ldVxK (h : w &&& 0xF0FF#16 = 0xF00A#16) : decode w = .ldVxK (fieldX w) := by
  obtain ⟨hdec, hkk⟩ := decode_familyF (kk := 0x0A#8) h rfl
  rw [hdec, decodeFamilyF, hkk]; rfl

theorem decode_ldDtVx (h : w &&& 0xF0FF#16 = 0xF015#16) : decode w = .ldDtVx (fieldX w) := by
  obtain ⟨hdec, hkk⟩ := decode_familyF (kk := 0x15#8) h rfl
  rw [hdec, decodeFamilyF, hkk]; rfl

theorem decode_addIVx (h : w &&& 0xF0FF#16 = 0xF01E#16) : decode w = .addIVx (fieldX w) := by
  obtain ⟨hdec, hkk⟩ := decode_familyF (kk := 0x1E#8) h rfl
  rw [hdec, decodeFamilyF, hkk]; rfl

theorem decode_ldVxMemi (h : w &&& 0xF0FF#16 = 0xF065#16) : decode w = .ldVxMemi (fieldX w) := by
  obtain ⟨hdec, hkk⟩ := decode_familyF (kk := 0x65#8) h rfl
  rw [hdec, decodeFamilyF, hkk]; rfl

end

/-- A word of a row decodes to an instruction of that row. -/
theorem rowOf_decode_of_mask {w : Word} {r : OpcodeRow} (hr : r ∈ opcodeRows) (h : w &&& r.mask = r.pattern) :
    rowOf (decode w) = some r := by
  simp only [opcodeRows, List.mem_cons, List.not_mem_nil, or_false] at hr
  rcases hr with rfl | rfl | rfl | rfl | rfl | rfl | rfl | rfl | rfl | rfl | rfl | rfl | rfl | rfl | rfl | rfl
  exacts [congrArg rowOf (decode_ret h), congrArg rowOf (decode_jp h), congrArg rowOf (decode_call h),
    congrArg rowOf (decode_se h), congrArg rowOf (decode_sne h), congrArg rowOf (decode_ldVxKk h),
    congrArg rowOf (decode_addVxKk h), congrArg rowOf (decode_ldVxVy h), congrArg rowOf (decode_ldINnn h),
    congrArg rowOf (decode_drw h), congrArg rowOf (decode_sknp h), congrArg rowOf (decode_ldVxDt h),
    congrArg rowOf (decode_ldVxK h), congrArg rowOf (decode_ldDtVx h), congrArg rowOf (decode_addIVx h),
    congrArg rowOf (decode_ldVxMemi h)]

/-! ## The table against the decoder -/

/-- One row of R76: from the mask by the row's decode equation `hdec`, back by the encoder. -/
theorem mask_iff_decode {w m p : Word} {i : Instr} (hrow : rowOf i = some ⟨m, p⟩)
    (hdec : w &&& m = p → decode w = i) : w &&& m = p ↔ decode w = i := by
  refine ⟨hdec, fun hi => ?_⟩
  subst hi
  exact beq_iff_eq.1 (covers_of_rowOf_decode hrow).2

/-- Only the `unknown` terms have no row. -/
theorem eq_unknown_of_rowOf_eq_none {i : Instr} (h : rowOf i = none) : ∃ w, i = .unknown w := by
  cases i with
  | unknown w => exact ⟨w, rfl⟩
  | _ => cases h

/-- R76: the words of the table are those that decode to an instruction with a row. -/
theorem isInstructionWord_iff {w : Word} : isInstructionWord w = true ↔ ∃ r, rowOf (decode w) = some r := by
  simp only [isInstructionWord, List.any_eq_true]
  constructor
  · rintro ⟨r, hr, hcov⟩
    exact ⟨r, rowOf_decode_of_mask hr (beq_iff_eq.1 hcov)⟩
  · rintro ⟨r, hr⟩
    exact ⟨r, covers_of_rowOf_decode hr⟩

/-- R78: no row is left for exactly the words that decode to `Unknown(w)`. -/
theorem not_isInstructionWord_iff {w : Word} : isInstructionWord w = false ↔ decode w = .unknown w := by
  rw [← Bool.not_eq_true, isInstructionWord_iff]
  constructor
  · intro hnone
    obtain ⟨v, hv⟩ := eq_unknown_of_rowOf_eq_none (Option.eq_none_iff_forall_ne_some.2 (not_exists.1 hnone))
    have hw := encode_decode w
    rw [hv] at hw
    rw [hv, show v = w from hw]
  · rintro hw ⟨r, hr⟩
    rw [hw] at hr
    cases hr

/-- Settles O2: each row by its decode equation and the encoder, the words of no row by what is left. -/
theorem decodeAgreesWithMaskAndMatch : Obligations.DecodeAgreesWithMaskAndMatch := fun _ =>
  ⟨mask_iff_decode rfl decode_ret, mask_iff_decode rfl decode_jp, mask_iff_decode rfl decode_call,
    mask_iff_decode rfl decode_se, mask_iff_decode rfl decode_sne, mask_iff_decode rfl decode_ldVxKk,
    mask_iff_decode rfl decode_addVxKk, mask_iff_decode rfl decode_ldVxVy, mask_iff_decode rfl decode_ldINnn,
    mask_iff_decode rfl decode_drw, mask_iff_decode rfl decode_sknp, mask_iff_decode rfl decode_ldVxDt,
    mask_iff_decode rfl decode_ldVxK, mask_iff_decode rfl decode_ldDtVx, mask_iff_decode rfl decode_addIVx,
    mask_iff_decode rfl decode_ldVxMemi, not_isInstructionWord_iff⟩

end Sys2Proof.Laws
end

section
/-! PROOFS for the flow family (40_flow.md R100, R101, R103, R104): the return, the jump, and the two skips on an
immediate byte. -/

namespace Sys2Proof.Machine

/-! ## The return and the jump -/

/-- R100, off the underflow of R163: the whole next state. -/
theorem exec_ret_of_count {s : State} {n : Nat} (hn : n < 15) (hsp : s.sp.val = n + 1) :
    exec .ret s = .next { s with sp := ⟨n, Nat.lt_succ_of_lt hn⟩, pc := s.stack[n] + 2 } := by
  simp only [exec, execRet, State.pop_of_count hn hsp, State.jumpTo]

/-- Settles O5: an empty stack is the fault of R163, any other count is popped. -/
theorem returnPopsAndContinuesAfterTheCall : Obligations.ReturnPopsAndContinuesAfterTheCall := by
  refine fun s => ⟨fun hempty => ?_, fun n hn hsp => exec_ret_of_count hn hsp⟩
  have hfault : faultOf .ret s = some .stackUnderflow := if_pos hempty
  exact exec_of_faultOf_some hfault

/-- Settles O6: the jump is `State.jumpTo` and nothing more. -/
theorem jumpSetsProgramCounterOnly : Obligations.JumpSetsProgramCounterOnly := fun _ _ => rfl

/-! ## The skips -/

/-- The comparison of R103 and R104, read as a proposition about the register. -/
theorem equalsImm_iff {s : State} {x : RegIdx} {kk : Byte} : equalsImm s x kk = true ↔ s.reg x = kk := beq_iff_eq

/-- A skip writes `pc` only: 4 on when its condition, read as the proposition `p`, holds, else 2 on. -/
theorem State.skipIf_eq_of_iff {s : State} {c : Bool} {p : Prop} [Decidable p] (hc : c = true ↔ p) :
    s.skipIf c = { s with pc := if p then s.pc + 4 else s.pc + 2 } := by
  by_cases hp : p
  · rw [if_pos hp, hc.2 hp]; rfl
  · rw [if_neg hp, Bool.eq_false_iff.2 (mt hc.1 hp)]; rfl

/-- Settles O10: the skip on `equalsImm`. -/
theorem skipIfEqualTestsTheImmediate : Obligations.SkipIfEqualTestsTheImmediate := fun _ _ _ =>
  congrArg Host.Outcome.next (State.skipIf_eq_of_iff equalsImm_iff)

/-- Settles O11: the skip on the negation of `equalsImm`. -/
theorem skipIfNotEqualTestsTheImmediate : Obligations.SkipIfNotEqualTestsTheImmediate := by
  intro x kk s
  have hne : (!equalsImm s x kk) = true ↔ s.reg x ≠ kk := by
    rw [Bool.not_eq_true', ← Bool.not_eq_true, equalsImm_iff]
  exact congrArg Host.Outcome.next (State.skipIf_eq_of_iff hne)

end Sys2Proof.Machine
end

section
/-! PROOFS for the data family (41_data.md R110, R111, R113): the immediate load, the immediate add, and the load of
the address register. Each is one write followed by `pc + 2`. -/

namespace Sys2Proof.Machine

/-! ## The immediate load -/

/-- Settles O12: the immediate is written as it stands. -/
theorem loadImmediateWritesTheByte : Obligations.LoadImmediateWritesTheByte := fun _ _ _ => rfl

/-! ## The immediate add -/

/-- R111, R140: an adder of width `w` gives the sum of the two numbers modulo `2 ^ w`. -/
theorem add_eq_ofNat_mod {w : Nat} (a b : BitVec w) : a + b = BitVec.ofNat w ((a.toNat + b.toNat) % 2 ^ w) := by
  rw [← BitVec.toNat_add, BitVec.ofNat_toNat, BitVec.setWidth_eq]

theorem exec_addVxKk (x : RegIdx) (kk : Byte) (s : State) :
    exec (.addVxKk x kk) s = .next ((s.setReg x (s.reg x + kk)).advance 2) := rfl

/-- Settles O13: the sum by `add_eq_ofNat_mod`, VF because only register `x` is written. -/
theorem addImmediateWrapsAndKeepsTheFlag : Obligations.AddImmediateWrapsAndKeepsTheFlag := by
  refine fun x kk s => ⟨_, exec_addVxKk x kk s, ?_, fun hx => ?_⟩
  · rw [add_eq_ofNat_mod]; rfl
  · rw [State.reg_advance, State.reg_setReg_other s x 15 _ hx.symm]

/-! ## The load of the address register -/

/-- R74: an address operand is 0x0000..0x0FFF. -/
theorem addrOperand_toNat_le (nnn : Addr12) : (addrOperand nnn).toNat ≤ 0x0FFF := by
  have hext : (addrOperand nnn).toNat = nnn.toNat := BitVec.toNat_setWidth_of_le (by decide)
  have := nnn.isLt
  omega

/-- Settles O15: the address operand is written, and bounded by `addrOperand_toNat_le`. -/
theorem loadAddressRegisterZeroExtends : Obligations.LoadAddressRegisterZeroExtends := fun nnn _ =>
  ⟨_, rfl, rfl, addrOperand_toNat_le nnn⟩

end Sys2Proof.Machine
end

section
/-! PROOFS for the key and timer family (43_key_timer.md R131, R133): the read of the delay timer, the write of it, and
the tick that counts it down. -/

namespace Sys2Proof.Machine

/-! ## The read -/

/-- Settles O21: the read is one register write and `pc + 2`, and leaves the timer out of what it writes. -/
theorem readDelayTimerKeepsTheTimer : Obligations.ReadDelayTimerKeepsTheTimer := fun _ _ => rfl

/-! ## The write and the countdown -/

/-- R133, the write alone. -/
theorem exec_ldDtVx (x : RegIdx) (s : State) :
    exec (.ldDtVx x) s = .next { s with DT := s.reg x, pc := s.pc + 2 } := rfl

/-- The step of a Running machine on a tick (R9, R175). -/
theorem step_of_tick {s : State} (hr : s.run = .running) (hi : s.takeInput.1 = .tick) :
    step s = .next s.takeInput.2.tick := by
  rw [step_running hr, hi, runInput]

/-- Settles O23: the write by `exec_ldDtVx`, each tick by what `countDown` leaves. -/
theorem writeDelayTimerStartsTheCountdown : Obligations.WriteDelayTimerStartsTheCountdown := by
  refine ⟨exec_ldDtVx, fun s t hr hi h => ?_⟩
  rw [step_of_tick hr hi] at h
  cases h
  rw [State.tick_DT, State.takeInput_DT, countDown_toNat]

end Sys2Proof.Machine
end

section
/-! PROOFS for the exceptions family (60_exceptions.md R161, R166): the halt on an Unknown word, and the quit input. -/

namespace Sys2Proof.Machine

/-! ## Unknown words -/

/-- Settles O26: `Unknown(w)` is always a fault (`exec_of_faultOf_some`), and its encoding is `w`. -/
theorem unknownWordHaltsWithItsOpcode : Obligations.UnknownWordHaltsWithItsOpcode := by
  intro w s
  have hfault : faultOf (.unknown w) s = some .unknownOpcode := rfl
  exact ⟨s.halt .unknownOpcode w, exec_of_faultOf_some hfault, rfl, State.halt_pc s .unknownOpcode w⟩

/-! ## The quit input -/

/-- Taking an input writes the pending list and the counter only. -/
theorem State.takeInput_eq (s : State) :
    s.takeInput.2 = { s with pending := s.takeInput.2.pending, drawn := s.takeInput.2.drawn } := by
  unfold State.takeInput
  split <;> rfl

/-- The step of a Running machine on the quit input (R166): no key refresh, no fetch. -/
theorem step_of_quit {s : State} (hr : s.run = .running) (hi : s.takeInput.1 = .cycle .quit) :
    step s = .next (s.takeInput.2.halt .quit 0x0000#16) := by
  rw [step_running hr, hi, runInput, cycle]

/-- R171, R182: a machine halted by the quit input exits with success. -/
theorem State.exitSuccess_halt_quit (s : State) (w : Word) : (s.halt .quit w).exitSuccess = some true :=
  State.exitSuccess_halted (State.halt_run s .quit w)

/-- Settles O37: the step is the halt alone (`step_of_quit`), after an input was taken (`State.takeInput_eq`). -/
theorem quitHaltsBeforeAnythingElse : Obligations.QuitHaltsBeforeAnythingElse := by
  intro s hr hi
  refine ⟨s.takeInput.2.halt .quit 0x0000#16, step_of_quit hr hi, ?_, rfl, State.exitSuccess_halt_quit _ _⟩
  exact congrArg (fun t : State => t.halt .quit 0x0000#16) s.takeInput_eq

end Sys2Proof.Machine
end

section
/-! PROOFS for the encoding statements of the family 'other' (30_encoding.md sections 1, 3 and 6): the decoder and the
encoder undo each other. -/

namespace Sys2Proof.Laws

/-! ## The decoder undoes the encoder -/

/-- Each format hands the decoder back the fields it was given, and an `unknown` term is well-formed exactly when its
word has no row (R78). -/
theorem decode_encode {i : Instr} (h : i.wf = true) : decode (encode i) = i := by
  cases i with
  | ret => rfl
  | jp nnn | call nnn | ldINnn nnn => simp [encode, decode]
  | se x kk | sne x kk | ldVxKk x kk | addVxKk x kk => simp [encode, decode]
  | ldVxVy x y => simp [encode, decode, decodeFamily8]
  | drw x y n => simp [encode, decode]
  | sknp x => simp [encode, decode, decodeFamilyE]
  | ldVxDt x | ldVxK x | ldDtVx x | addIVx x | ldVxMemi x => simp [encode, decode, decodeFamilyF]
  | unknown w => exact not_isInstructionWord_iff.1 (by simpa [Instr.wf, encode] using h)

/-- R55, R81: the decoder reads a stored word as the word, and leaves the bytes after it. -/
theorem decodeBytes_bytesOfWord (w : Word) (rest : List Byte) :
    decodeBytes (bytesOfWord w ++ rest) = .ok (decode w, rest) := by
  change Except.ok (decode (wordOfBytes (w.extractLsb' 8 8) (w.extractLsb' 0 8)), rest) = _
  rw [wordOfBytes_bytesOfWord]

/-- Settles O3, by `decode_encode`, and for the stored bytes by `decodeBytes_bytesOfWord`. -/
theorem decodeInvertsEncode : Obligations.DecodeInvertsEncode := by
  intro i rest hwf
  refine ⟨decode_encode hwf, ?_⟩
  rw [encodeBytes, decodeBytes_bytesOfWord, decode_encode hwf]

/-! ## The encoder undoes the decoder -/

/-- R71, R78: the decoder answers `unknown` only on a word of no row, and then with that word. -/
theorem decode_wf (w : Word) : (decode w).wf = true := by
  cases hd : decode w with
  | unknown v =>
    have hv : v = w := by simpa [hd, encode] using encode_decode w
    have hrow : isInstructionWord w = false := not_isInstructionWord_iff.2 (hv ▸ hd)
    simp [Instr.wf, hv, hrow]
  | _ => rfl

/-- Settles O4, by `decode_wf` and `encode_decode`. -/
theorem encodeInvertsDecode : Obligations.EncodeInvertsDecode := fun w => ⟨decode_wf w, encode_decode w⟩

/-- Settles O1: the twelve words, each decoded. -/
theorem specWordsDecodeToTheirInstructions : Obligations.SpecWordsDecodeToTheirInstructions := by
  unfold Obligations.SpecWordsDecodeToTheirInstructions
  decide

end Sys2Proof.Laws
end

section
/-! PROOFS for the family 'other', the layer its statements about one instruction rest on: the next state of every
instruction as `faultOf` and `pcAfter` give its fault and its `pc`, and as the column 'written by' of 10_state.md
section 1 gives the rest. `exec_eq` ties it to `exec`. -/

namespace Sys2Proof.Machine

/-! ## What a completed instruction writes -/

/-- The draw of `Dxyn`: `n` rows from `I`, at the coordinates in Vx and Vy (R120, R121). -/
def State.drawing (s : State) (x y : RegIdx) (n : Nat) : Drawing :=
  drawSprite s.fb (s.reg x) (s.reg y) (s.mem.bytesAt s.I.toNat n)

/-- The byte a completed instruction writes to register `q`, if it writes it. -/
def regWrite : Instr → State → RegIdx → Option Byte
  | .ldVxKk x kk, _, q => if q = x then some kk else none
  | .addVxKk x kk, s, q => if q = x then some (s.reg x + kk) else none
  | .ldVxVy x y, s, q => if q = x then some (s.reg y) else none
  | .drw x y n, s, q => if q = 15 then some (flagByte (s.drawing x y n.val).collision) else none
  | .ldVxDt x, s, q => if q = x then some s.DT else none
  | .ldVxK x, s, q => if s.keyPressed = true ∧ q = x then some (keyOperand s) else none
  | .ldVxMemi x, s, q => if q ≤ x then some (s.mem.read (s.I.toNat + q.val)) else none
  | _, _, _ => none

/-- What a completed instruction writes beside the general registers and `pc`. -/
def specialsAfter : Instr → State → State
  | .ret, s => { s with sp := s.sp - 1 }
  | .call _, s => { s with stack := s.stack.setIfInBounds s.sp.val s.pc, sp := s.sp + 1 }
  | .ldINnn nnn, s => { s with I := addrOperand nnn }
  | .drw x y n, s =>
    { s with fb := (s.drawing x y n.val).fb, display := s.display ++ (s.drawing x y n.val).events }
  | .ldDtVx x, s => { s with DT := s.reg x }
  | .addIVx x, s => { s with I := s.I + regOperand16 s x }
  | _, s => s

/-- The register file a completed instruction leaves. -/
@[irreducible] def regsAfter (i : Instr) (s : State) : Vector Byte 16 :=
  Vector.ofFn fun q => (regWrite i s q).getD (s.reg q)

/-- The state a completed instruction leaves. -/
def complete (i : Instr) (s : State) : State :=
  { specialsAfter i s with V := regsAfter i s, pc := pcAfter i s }

/-- The state an instruction leaves: that of its fault, or that of its completion. -/
def afterExec (i : Instr) (s : State) : State :=
  match faultOf i s with
  | some c => s.halt c (encode i)
  | none => complete i s

theorem complete_reg (i : Instr) (s : State) (q : RegIdx) :
    (complete i s).reg q = (regWrite i s q).getD (s.reg q) := by
  simp [complete, regsAfter, State.reg, Vector.get_eq_getElem]

/-- The register file is made of the registers before and of what is written to them. -/
theorem regsAfter_congr {i : Instr} {s s' : State} (hV : s'.V = s.V) (hw : ∀ q, regWrite i s' q = regWrite i s q) :
    regsAfter i s' = regsAfter i s := by
  unfold regsAfter
  simp only [hw, State.reg_congr hV]

/-- Two states with the same registers that agree beside them are the same. -/
theorem State.eq_of_reg {s t : State} (hrest : { s with V := t.V } = t) (hreg : ∀ q, s.reg q = t.reg q) : s = t := by
  have hV : s.V = t.V := Vector.ext fun q hq => hreg ⟨q, hq⟩
  rw [← hrest, ← hV]

/-! ## The completed instruction is what `exec` runs -/

/-- A state that leaves the registers and the rest as the rules say is the completed one. -/
theorem eq_complete {i : Instr} {s t : State} (hrest : { t with V := (complete i s).V } = complete i s)
    (hreg : ∀ q, t.reg q = (regWrite i s q).getD (s.reg q)) : t = complete i s :=
  State.eq_of_reg hrest fun q => (hreg q).trans (complete_reg i s q).symm

/-- R100, off the underflow. -/
theorem exec_ret {s : State} (h : s.sp.val ≠ 0) : exec .ret s = .next (complete .ret s) := by
  have hsp : s.sp.val = (s.sp.val - 1) + 1 := by omega
  have hpred : s.sp - 1 = ⟨s.sp.val - 1, by omega⟩ := Fin.ext (by simp; omega)
  rw [exec_ret_of_count (by omega) hsp]
  refine congrArg _ (eq_complete ?_ fun q => rfl)
  simp [complete, specialsAfter, pcAfter, Nat.pos_of_ne_zero h, hpred]

/-- R102, off the overflow: the whole next state. -/
theorem exec_call {s : State} (nnn : Addr12) (h : s.sp.val < 15) :
    exec (.call nnn) s = .next { s with
      stack := s.stack.set s.sp.val s.pc, sp := ⟨s.sp.val + 1, Nat.succ_lt_succ h⟩, pc := addrOperand nnn } := by
  simp only [exec, execCall, State.push_of_room _ h, State.jumpTo]

theorem exec_call_eq_complete {s : State} (nnn : Addr12) (h : s.sp.val < 15) :
    exec (.call nnn) s = .next (complete (.call nnn) s) := by
  have hsucc : s.sp + 1 = ⟨s.sp.val + 1, Nat.succ_lt_succ h⟩ := Fin.ext (by simp [Fin.val_add]; omega)
  have hset : s.stack.setIfInBounds s.sp.val s.pc = s.stack.set s.sp.val s.pc := by
    ext j hj
    simp [Vector.getElem_setIfInBounds, Vector.getElem_set]
  rw [exec_call nnn h]
  refine congrArg _ (eq_complete ?_ fun q => rfl)
  simp [complete, specialsAfter, pcAfter, addrOperand, hsucc, hset]

/-- R120, off the out-of-bounds sprite. -/
theorem exec_drw {s : State} (x y : RegIdx) (n : RowCount) (h : n.val = 0 ∨ s.I.toNat + n.val ≤ 0x1000) :
    exec (.drw x y n) s = .next (complete (.drw x y n) s) := by
  simp only [exec, execDrw, indexedOperand_eq_some.2 ⟨h, rfl⟩]
  refine congrArg _ (eq_complete rfl fun q => ?_)
  simp only [State.nextInstr_eq_advance, State.setFlag_eq_setReg, State.reg_advance, State.reg_setReg, regWrite]
  split <;> rfl

/-- R141, off the out-of-bounds load. -/
theorem exec_ldVxMemi {s : State} (x : RegIdx) (h : s.I.toNat + (x.val + 1) ≤ 0x1000) :
    exec (.ldVxMemi x) s = .next (complete (.ldVxMemi x) s) := by
  simp only [exec, execLdVxMemi, indexedOperand_eq_some.2 ⟨.inr h, rfl⟩]
  refine congrArg _ (eq_complete (by ext <;> simp [complete, specialsAfter, pcAfter]) fun q => ?_)
  have hq : q ≤ x ↔ q.val < x.val + 1 := by rw [Fin.le_def]; omega
  simp only [State.nextInstr_eq_advance, State.reg_advance, State.reg_setRegsFrom, regWrite, hq]
  by_cases hlt : q.val < x.val + 1 <;> simp [hlt]

/-- R132, with and without a key. -/
theorem exec_ldVxK (x : RegIdx) (s : State) : exec (.ldVxK x) s = .next (complete (.ldVxK x) s) := by
  by_cases hkey : s.keyPressed = true
  · rw [exec, execLdVxK, if_pos hkey]
    refine congrArg _ (eq_complete (by simp [complete, specialsAfter, pcAfter, hkey]) fun q => ?_)
    simp only [State.nextInstr_eq_advance, State.reg_advance, State.reg_setReg, regWrite, hkey, true_and]
    split <;> rfl
  · rw [exec, execLdVxK, if_neg hkey]
    refine congrArg _ (eq_complete (by simp [complete, specialsAfter, pcAfter, hkey]) fun q => ?_)
    simp [regWrite, hkey]

/-- R130. -/
theorem exec_sknp (x : RegIdx) (s : State) : exec (.sknp x) s = .next { s with pc := pcAfter (.sknp x) s } := by
  simp only [exec, execSknp, State.skipIf_eq_advance, pcAfter, ← keyMatches_iff]
  cases keyMatches s x <;> rfl

/-- Where the fault table gives no fault, `exec` completes the instruction. -/
theorem exec_of_no_fault {i : Instr} {s : State} (h : faultOf i s = none) : exec i s = .next (complete i s) := by
  have hI := s.I.isLt
  have hsp := s.sp.isLt
  cases i <;> simp only [faultOf, ite_eq_right_iff, reduceCtorEq, imp_false] at h
  case ret => exact exec_ret h
  case call nnn => exact exec_call_eq_complete nnn (by omega)
  case drw x y n => exact exec_drw x y n (by omega)
  case ldVxMemi x => exact exec_ldVxMemi x (by omega)
  case ldVxK x => exact exec_ldVxK x s
  case se x kk => exact (skipIfEqualTestsTheImmediate x kk s).trans (congrArg _ (eq_complete rfl fun q => rfl))
  case sne x kk => exact (skipIfNotEqualTestsTheImmediate x kk s).trans (congrArg _ (eq_complete rfl fun q => rfl))
  case sknp x => exact (exec_sknp x s).trans (congrArg _ (eq_complete rfl fun q => rfl))
  case jp nnn | ldINnn nnn | ldDtVx x | addIVx x =>
    simp only [exec, execJp, execLdINnn, execLdDtVx, execAddIVx]
    exact congrArg _ (eq_complete rfl fun q => rfl)
  case ldVxKk x kk | addVxKk x kk | ldVxVy x y | ldVxDt x =>
    simp only [exec, execLdVxKk, execAddVxKk, execLdVxVy, execLdVxDt]
    refine congrArg _ (eq_complete rfl fun q => ?_)
    simp only [State.nextInstr_eq_advance, State.reg_advance, State.reg_setReg, regWrite]
    split <;> rfl

/-- All that an instruction answers, in every state. -/
theorem exec_eq (i : Instr) (s : State) : exec i s = .next (afterExec i s) := by
  unfold afterExec
  split
  case h_1 c h => exact exec_of_faultOf_some h
  case h_2 h => exact exec_of_no_fault h

/-- So the next state of an instruction is `afterExec`. -/
theorem eq_afterExec {i : Instr} {s t : State} (h : exec i s = .next t) : t = afterExec i s := by
  rw [exec_eq] at h
  cases h
  rfl

theorem afterExec_of_fault {i : Instr} {s : State} {c : HaltCause} (h : faultOf i s = some c) :
    afterExec i s = s.halt c (encode i) := by
  rw [afterExec, h]

theorem afterExec_of_no_fault {i : Instr} {s : State} (h : faultOf i s = none) : afterExec i s = complete i s := by
  rw [afterExec, h]

/-- What holds after the fault of an instruction and after its completion holds after the instruction. -/
theorem afterExec_cases (P : State → Prop) {i : Instr} {s : State}
    (hfault : ∀ c, faultOf i s = some c → P (s.halt c (encode i))) (hdone : faultOf i s = none → P (complete i s)) :
    P (afterExec i s) := by
  cases h : faultOf i s with
  | some c => rw [afterExec_of_fault h]; exact hfault c h
  | none => rw [afterExec_of_no_fault h]; exact hdone h

end Sys2Proof.Machine
end

section
/-! PROOFS for the statements of the family 'other' that frame every instruction (10_state.md sections 1, 2 and 6;
20_memory.md section 3; 60_exceptions.md section 1), read off the next state `afterExec`. -/

namespace Sys2Proof.Machine

/-! ## The fault of an instruction -/

/-- Settles O27: the fault table decides between the halt and the completion. -/
theorem instructionsHaltExactlyOnTheirFault : Obligations.InstructionsHaltExactlyOnTheirFault := by
  refine fun i s => ⟨fun c hfault => exec_of_faultOf_some hfault, fun hnone => ?_⟩
  obtain ⟨t, ht, hdone⟩ := exec_of_faultOf_none hnone
  exact ⟨t, ht, hdone.run, hdone.haltCause, hdone.haltOpcode⟩

/-- The fault table reads the stack count and `I` only. -/
theorem faultOf_congr {s s' : State} (i : Instr) (hsp : s'.sp = s.sp) (hI : s'.I = s.I) :
    faultOf i s' = faultOf i s := by
  cases i <;> simp only [faultOf, hsp, hI]

/-- Two states with one stack count and one `I` meet the same fault, so a relation between what an instruction makes of
them is to be shown of the halts and of the completions only. -/
theorem afterExec_rel (R : State → State → Prop) {i : Instr} {s s' : State} (hsp : s'.sp = s.sp) (hI : s'.I = s.I)
    (hhalt : ∀ c w, R (s'.halt c w) (s.halt c w)) (hdone : R (complete i s') (complete i s)) :
    R (afterExec i s') (afterExec i s) := by
  unfold afterExec
  rw [faultOf_congr i hsp hI]
  split
  · exact hhalt _ _
  · exact hdone

/-! ## What every instruction leaves unchanged -/

section Frame
variable (i : Instr) (s : State)

@[simp] theorem afterExec_ST : (afterExec i s).ST = s.ST :=
  afterExec_cases (·.ST = s.ST) (fun _ _ => rfl) fun _ => by cases i <;> rfl

@[simp] theorem afterExec_mem : (afterExec i s).mem = s.mem :=
  afterExec_cases (·.mem = s.mem) (fun _ _ => rfl) fun _ => by cases i <;> rfl

@[simp] theorem afterExec_keyCode : (afterExec i s).keyCode = s.keyCode :=
  afterExec_cases (·.keyCode = s.keyCode) (fun _ _ => rfl) fun _ => by cases i <;> rfl

@[simp] theorem afterExec_keyPressed : (afterExec i s).keyPressed = s.keyPressed :=
  afterExec_cases (·.keyPressed = s.keyPressed) (fun _ _ => rfl) fun _ => by cases i <;> rfl

@[simp] theorem afterExec_pending : (afterExec i s).pending = s.pending :=
  afterExec_cases (·.pending = s.pending) (fun _ _ => rfl) fun _ => by cases i <;> rfl

@[simp] theorem afterExec_drawn : (afterExec i s).drawn = s.drawn :=
  afterExec_cases (·.drawn = s.drawn) (fun _ _ => rfl) fun _ => by cases i <;> rfl

end Frame

/-! ## What only some instructions write -/

section Writers
variable {i : Instr} {s : State}

theorem afterExec_I (hld : ∀ nnn, i ≠ .ldINnn nnn) (hadd : ∀ x, i ≠ .addIVx x) : (afterExec i s).I = s.I := by
  refine afterExec_cases (·.I = s.I) (fun _ _ => rfl) fun _ => ?_
  cases i with
  | ldINnn nnn => exact absurd rfl (hld nnn)
  | addIVx x => exact absurd rfl (hadd x)
  | _ => rfl

theorem afterExec_DT (hld : ∀ x, i ≠ .ldDtVx x) : (afterExec i s).DT = s.DT := by
  refine afterExec_cases (·.DT = s.DT) (fun _ _ => rfl) fun _ => ?_
  cases i with
  | ldDtVx x => exact absurd rfl (hld x)
  | _ => rfl

theorem afterExec_fb_display (hdrw : ∀ x y n, i ≠ .drw x y n) :
    (afterExec i s).fb = s.fb ∧ (afterExec i s).display = s.display := by
  refine afterExec_cases (fun t => t.fb = s.fb ∧ t.display = s.display) (fun _ _ => ⟨rfl, rfl⟩) fun _ => ?_
  cases i with
  | drw x y n => exact absurd rfl (hdrw x y n)
  | _ => exact ⟨rfl, rfl⟩

theorem afterExec_stack (hcall : ∀ nnn, i ≠ .call nnn) : (afterExec i s).stack = s.stack := by
  refine afterExec_cases (·.stack = s.stack) (fun _ _ => rfl) fun _ => ?_
  cases i with
  | call nnn => exact absurd rfl (hcall nnn)
  | _ => rfl

end Writers

/-- Settles O31: the special state field by field, the halt record by `exec_cases`. -/
theorem specialStateIsWrittenOnlyByItsInstructions : Obligations.SpecialStateIsWrittenOnlyByItsInstructions := by
  intro i s t h
  have hrecord : faultOf i s = none → t.run = s.run ∧ t.haltCause = s.haltCause ∧ t.haltOpcode = s.haltOpcode := by
    intro hnone
    rcases exec_cases h with ⟨c, hfault, -⟩ | ⟨-, hdone⟩
    · simp [hnone] at hfault
    · exact ⟨hdone.run, hdone.haltCause, hdone.haltOpcode⟩
  have hsp : (∀ nnn, i ≠ .call nnn) → i ≠ .ret → t.sp = s.sp := fun hcall hret => exec_keeps_sp hret hcall h
  obtain rfl := eq_afterExec h
  exact ⟨afterExec_I, afterExec_DT, afterExec_fb_display, fun hcall => ⟨afterExec_stack hcall, hsp hcall⟩, hrecord,
    afterExec_ST i s, afterExec_keyCode i s, afterExec_keyPressed i s, afterExec_pending i s, afterExec_drawn i s,
    fun a => by rw [afterExec_mem]⟩

/-! ## The general registers an instruction writes -/

/-- R22: a register outside the write set is given no byte. -/
theorem regWrite_eq_none {i : Instr} {r : RegIdx} (s : State) (h : i.writesReg r = false) : regWrite i s r = none := by
  cases i with
  | ldVxKk x kk | addVxKk x kk | ldVxVy x y | ldVxDt x | drw x y n => exact if_neg (beq_eq_false_iff_ne.1 h)
  | ldVxK x => exact if_neg fun ⟨_, hr⟩ => beq_eq_false_iff_ne.1 h hr
  | ldVxMemi x => exact if_neg (of_decide_eq_false h)
  | _ => rfl

theorem afterExec_reg_of_unwritten {i : Instr} {s : State} {r : RegIdx} (h : i.writesReg r = false) :
    (afterExec i s).reg r = s.reg r := by
  refine afterExec_cases (·.reg r = s.reg r) (fun _ _ => rfl) fun _ => ?_
  rw [complete_reg, regWrite_eq_none s h, Option.getD_none]

/-- Settles O29, by `afterExec_reg_of_unwritten`. -/
theorem onlyNamedRegistersAreWritten : Obligations.OnlyNamedRegistersAreWritten := by
  refine ⟨fun i s t r h hw => ?_, State.reg_tick, State.reg_refreshKey⟩
  obtain rfl := eq_afterExec h
  exact afterExec_reg_of_unwritten hw

/-! ## The general registers an instruction reads -/

section Unread
variable {i : Instr} {s : State} {r : RegIdx} {v : Byte}

/-- A register that an instruction does not read reads alike in what it computes from the others. -/
theorem reg_setReg_of_unread {x : RegIdx} (h : (r == x) = false) : (s.setReg r v).reg x = s.reg x :=
  State.reg_setReg_other s r x v (Ne.symm (by simpa using h))

theorem drawing_setReg {x y : RegIdx} (n : Nat) (h : (r == x || r == y) = false) :
    (s.setReg r v).drawing x y n = s.drawing x y n := by
  rw [Bool.or_eq_false_iff] at h
  rw [State.drawing, reg_setReg_of_unread h.1, reg_setReg_of_unread h.2]
  rfl

theorem regWrite_setReg (h : i.readsReg r = false) (q : RegIdx) : regWrite i (s.setReg r v) q = regWrite i s q := by
  cases i with
  | addVxKk x kk => simp only [regWrite, reg_setReg_of_unread h]
  | ldVxVy x y => simp only [regWrite, reg_setReg_of_unread h]
  | drw x y n => simp only [regWrite, drawing_setReg _ h]
  | _ => rfl

theorem specialsAfter_setReg (h : i.readsReg r = false) :
    specialsAfter i (s.setReg r v) = (specialsAfter i s).setReg r v := by
  cases i with
  | drw x y n => simp only [specialsAfter, drawing_setReg _ h]; rfl
  | ldDtVx x => simp only [specialsAfter, reg_setReg_of_unread h]; rfl
  | addIVx x => simp only [specialsAfter, regOperand16, reg_setReg_of_unread h]; rfl
  | _ => rfl

theorem pcAfter_setReg (h : i.readsReg r = false) : pcAfter i (s.setReg r v) = pcAfter i s := by
  cases i with
  | se x kk | sne x kk | sknp x => simp only [pcAfter, reg_setReg_of_unread h]; rfl
  | _ => rfl

/-- Beside the registers nothing shows the value of one that is not read. -/
theorem afterExec_setReg_rest (h : i.readsReg r = false) :
    { afterExec i (s.setReg r v) with V := (afterExec i s).V } = afterExec i s := by
  refine afterExec_rel (fun t' t => { t' with V := t.V } = t) rfl rfl (fun _ _ => rfl) ?_
  simp only [complete, specialsAfter_setReg h, pcAfter_setReg h]
  rfl

/-- A register after the instruction: overwritten alike, or what it was before. -/
theorem afterExec_setReg_reg (h : i.readsReg r = false) (q : RegIdx) :
    (afterExec i (s.setReg r v)).reg q = (afterExec i s).reg q ∨
      ((afterExec i (s.setReg r v)).reg q = (s.setReg r v).reg q ∧ (afterExec i s).reg q = s.reg q) := by
  refine afterExec_rel (fun t' t => t'.reg q = t.reg q ∨ (t'.reg q = (s.setReg r v).reg q ∧ t.reg q = s.reg q)) rfl rfl
    (fun _ _ => .inr ⟨rfl, rfl⟩) ?_
  rw [complete_reg, complete_reg, regWrite_setReg h]
  cases regWrite i s q with
  | none => exact .inr ⟨rfl, rfl⟩
  | some b => exact .inl rfl

end Unread

/-- Settles O30: the rest by `afterExec_setReg_rest`, the registers by `afterExec_setReg_reg`. -/
theorem onlyNamedRegistersAreRead : Obligations.OnlyNamedRegistersAreRead := by
  intro i s t t' r v hr h h'
  obtain rfl := eq_afterExec h
  obtain rfl := eq_afterExec h'
  refine ⟨afterExec_setReg_rest hr, fun q hq => ?_, ?_⟩
  · rcases afterExec_setReg_reg hr q with heq | ⟨hkept', hkept⟩
    · exact heq
    · rw [hkept', hkept, State.reg_setReg_other s r q v hq]
  · have hv := State.reg_setReg_same s r v
    exact (afterExec_setReg_reg hr r).imp_right fun ⟨hkept', hkept⟩ => ⟨hkept'.trans hv, hkept⟩

/-! ## Memory -/

/-- R58, R105: an instruction that reads no memory leaves the same state over any other. -/
theorem complete_withMem {i : Instr} (s : State) (m : Memory) (h : i.readsMem = false) :
    complete i { s with mem := m } = { complete i s with mem := m } := by
  have hreg : regsAfter i { s with mem := m } = regsAfter i s := regsAfter_congr rfl fun q => by
    cases i with
    | drw x y n | ldVxMemi x => cases h
    | _ => rfl
  have hspecial : specialsAfter i { s with mem := m } = { specialsAfter i s with mem := m } := by
    cases i with
    | drw x y n => cases h
    | _ => rfl
  have hpc : pcAfter i { s with mem := m } = pcAfter i s := by cases i <;> rfl
  simp only [complete, hreg, hspecial, hpc]

theorem afterExec_withMem {i : Instr} (s : State) (m : Memory) (h : i.readsMem = false) :
    afterExec i { s with mem := m } = { afterExec i s with mem := m } :=
  afterExec_rel (fun t' t => t' = { t with mem := m }) rfl rfl (fun _ _ => rfl) (complete_withMem s m h)

/-- Settles O33, by `afterExec_withMem`. -/
theorem otherInstructionsDoNotReadMemory : Obligations.OtherInstructionsDoNotReadMemory := by
  intro i s t m hr h
  obtain rfl := eq_afterExec h
  rw [exec_eq, afterExec_withMem s m hr]

/-! ## Dead stack slots -/

/-- The one reader of the stack is the return, and it reads a live slot (R100). -/
theorem pcAfter_withSlot (i : Instr) {s : State} {j : Fin 15} (v : Word) (hj : s.sp.val ≤ j.val) :
    pcAfter i { s with stack := s.stack.set j.val v } = pcAfter i s := by
  cases i with
  | ret =>
    simp only [pcAfter]
    split
    · rw [Vector.getElem_set_ne _ _ (by omega)]
    · rfl
  | _ => rfl

/-- D14: what a dead slot holds shows nowhere but in the stack. -/
theorem afterExec_withSlot_rest (i : Instr) {s : State} {j : Fin 15} (v : Word) (hj : s.sp.val ≤ j.val) :
    { afterExec i { s with stack := s.stack.set j.val v } with stack := (afterExec i s).stack } = afterExec i s := by
  refine afterExec_rel (fun t' t => { t' with stack := t.stack } = t) rfl rfl (fun _ _ => rfl) ?_
  have hreg : regsAfter i { s with stack := s.stack.set j.val v } = regsAfter i s :=
    regsAfter_congr rfl fun q => by cases i <;> rfl
  simp only [complete, hreg, pcAfter_withSlot i v hj]
  cases i <;> rfl

/-- D14: and there in its own slot only. -/
theorem afterExec_withSlot_stack (i : Instr) (s : State) {j m : Fin 15} (v : Word) (hm : m ≠ j) :
    (afterExec i { s with stack := s.stack.set j.val v }).stack.get m = (afterExec i s).stack.get m := by
  have hne : j.val ≠ m.val := fun e => hm (Fin.ext e.symm)
  have hslot : (s.stack.set j.val v).get m = s.stack.get m := by simp [Vector.get_eq_getElem, hne]
  refine afterExec_rel (fun t' t => t'.stack.get m = t.stack.get m) rfl rfl (fun _ _ => hslot) ?_
  cases i with
  | call nnn => simp [complete, specialsAfter, Vector.get_eq_getElem, Vector.getElem_setIfInBounds, hne]
  | _ => exact hslot

/-- Settles O34, by the two lemmas on a dead slot. -/
theorem deadStackSlotsHaveNoInfluence : Obligations.DeadStackSlotsHaveNoInfluence := by
  intro i s t t' j v hj h h'
  obtain rfl := eq_afterExec h
  obtain rfl := eq_afterExec h'
  exact ⟨afterExec_withSlot_rest i v hj, fun m hm => afterExec_withSlot_stack i s v hm⟩

end Sys2Proof.Machine
end

section
/-! PROOFS for the draw and the register load of the family 'other' (42_draw.md; 44_index_memory.md Fx65). The sprite of
a state is a list of pixels by row and column; `drawSprite_spec` says what drawing it does. -/

namespace Sys2Proof.Machine

/-! ## The sprite of a state -/

/-- The pixels of the sprite at `I`, in the order they are drawn (R122, R126). -/
def State.spritePixels (s : State) (x y : RegIdx) (n : Nat) : List SpritePixel :=
  (List.range n).flatMap fun r =>
    (List.range 8).map fun c => (pixelColumn (s.reg x) c, pixelRow (s.reg y) r, s.spriteBitAt r c)

/-- Does the sprite have a 1 bit that lands on index `j`? -/
def State.spriteFlips (s : State) (x y : RegIdx) (n j : Nat) : Bool :=
  (s.spritePixels x y n).any fun p => p.2.2 && decide (pixelIndex p.1 p.2.1 = j)

/-- The rows of a sprite given as a function, one after another. -/
theorem spritePixelsFrom_map_range (x0 y0 : Byte) (r n : Nat) (row : Nat → Byte) :
    spritePixelsFrom x0 y0 r ((List.range n).map row) =
      (List.range n).flatMap fun k =>
        (List.range 8).map fun c => (pixelColumn x0 c, pixelRow y0 (r + k), spriteBit (row k) c) := by
  induction n generalizing r row with
  | zero => rfl
  | succ n ih =>
    have hnext : ∀ k, r + 1 + k = r + (k + 1) := fun k => by omega
    rw [List.range_succ_eq_map, List.map_cons, List.map_map, spritePixelsFrom, ih, List.flatMap_cons, List.flatMap_map]
    simp only [hnext, Nat.add_zero, Function.comp, Nat.succ_eq_add_one]

section Sprite
variable {s : State} {x y : RegIdx} {n : Nat}

/-- The bytes the draw reads are the rows of the sprite (R125). -/
theorem spritePixelsFrom_bytesAt :
    spritePixelsFrom (s.reg x) (s.reg y) 0 (s.mem.bytesAt s.I.toNat n) = s.spritePixels x y n := by
  rw [Memory.bytesAt, spritePixelsFrom_map_range]
  simp only [Nat.zero_add]
  rfl

theorem any_spritePixels {P : SpritePixel → Bool} :
    (s.spritePixels x y n).any P = true ↔
      ∃ r c, r < n ∧ c < 8 ∧ P (pixelColumn (s.reg x) c, pixelRow (s.reg y) r, s.spriteBitAt r c) = true := by
  simp only [State.spritePixels, List.any_flatMap, List.any_map, List.any_eq_true, List.mem_range, Function.comp]
  exact exists_congr fun r => ⟨fun ⟨hr, c, hc, h⟩ => ⟨c, hr, hc, h⟩, fun ⟨c, hr, hc, h⟩ => ⟨hr, c, hc, h⟩⟩

theorem spriteFlips_iff {j : Nat} :
    s.spriteFlips x y n j = true ↔
      ∃ r c, r < n ∧ c < 8 ∧ s.spriteBitAt r c = true ∧ spriteIndex (s.reg x) (s.reg y) r c = j := by
  simp only [State.spriteFlips, any_spritePixels, Bool.and_eq_true, decide_eq_true_eq]
  rfl

/-- Two pixels of one sprite never land on the same place (R127). -/
theorem spriteIndex_inj {x0 y0 : Byte} {r r' c c' : Nat} (hr : r < 16) (hr' : r' < 16) (hc : c < 8) (hc' : c' < 8)
    (h : spriteIndex x0 y0 r c = spriteIndex x0 y0 r' c') : r = r' ∧ c = c' := by
  unfold spriteIndex at h
  omega

/-- Under the sprite the bit of the sprite decides. -/
theorem spriteFlips_spriteIndex {r c : Nat} (hn : n < 16) (hr : r < n) (hc : c < 8) :
    s.spriteFlips x y n (spriteIndex (s.reg x) (s.reg y) r c) = s.spriteBitAt r c := by
  rw [Bool.eq_iff_iff, spriteFlips_iff]
  constructor
  · rintro ⟨r', c', hr', hc', hbit, hidx⟩
    obtain ⟨rfl, rfl⟩ := spriteIndex_inj (by omega) (by omega) hc' hc hidx
    exact hbit
  · exact fun hbit => ⟨r, c, hr, hc, hbit, rfl⟩

/-! ## What the draw of a state does -/

/-- `drawSprite_spec` for the sprite of a state. -/
theorem drawing_spec (s : State) (x y : RegIdx) (hn : n < 16) :
    (∀ j, (s.drawing x y n).fb.getLsbD j = (s.fb.getLsbD j ^^ s.spriteFlips x y n j)) ∧
    (s.drawing x y n).collision =
      ((s.spritePixels x y n).any fun p => p.2.2 && s.fb.getLsbD (pixelIndex p.1 p.2.1)) ∧
    (s.drawing x y n).events =
      ((s.spritePixels x y n).filter (·.2.2)).map fun p => ⟨p.1, p.2.1, !s.fb.getLsbD (pixelIndex p.1 p.2.1)⟩ := by
  have h := drawSprite_spec s.fb (s.reg x) (s.reg y) (s.mem.bytesAt s.I.toNat n) (by simp; omega)
  rwa [spritePixelsFrom_bytesAt] at h

theorem drawing_fb_under {r c : Nat} (hn : n < 16) (hr : r < n) (hc : c < 8) :
    (s.drawing x y n).fb.getLsbD (spriteIndex (s.reg x) (s.reg y) r c) =
      (s.fb.getLsbD (spriteIndex (s.reg x) (s.reg y) r c) ^^ s.spriteBitAt r c) := by
  rw [(drawing_spec s x y hn).1, spriteFlips_spriteIndex hn hr hc]

theorem drawing_fb_beside {j : Nat} (hn : n < 16)
    (hj : ∀ r c, r < n → c < 8 → j ≠ spriteIndex (s.reg x) (s.reg y) r c) :
    (s.drawing x y n).fb.getLsbD j = s.fb.getLsbD j := by
  have hout : s.spriteFlips x y n j = false := by
    rw [← Bool.not_eq_true, spriteFlips_iff]
    rintro ⟨r, c, hr, hc, -, hidx⟩
    exact hj r c hr hc hidx.symm
  rw [(drawing_spec s x y hn).1, hout, Bool.xor_false]

theorem drawing_collision_iff (hn : n < 16) :
    (s.drawing x y n).collision = true ↔
      ∃ r c, r < n ∧ c < 8 ∧ s.spriteBitAt r c = true ∧
        s.fb.getLsbD (spriteIndex (s.reg x) (s.reg y) r c) = true := by
  rw [(drawing_spec s x y hn).2.1, any_spritePixels]
  simp only [Bool.and_eq_true]
  rfl

/-- R126: an event shows its pixel as the draw leaves it. -/
theorem drawing_events (hn : n < 16) :
    (s.drawing x y n).events = (List.range n).flatMap fun r =>
      ((List.range 8).filter fun c => s.spriteBitAt r c).map fun c =>
        ⟨pixelColumn (s.reg x) c, pixelRow (s.reg y) r,
          (s.drawing x y n).fb.getLsbD (spriteIndex (s.reg x) (s.reg y) r c)⟩ := by
  rw [(drawing_spec s x y hn).2.2, State.spritePixels, List.filter_flatMap, List.map_flatMap]
  refine List.flatMap_congr fun r hr => ?_
  rw [List.filter_map, List.map_map]
  refine List.map_congr_left fun c hc => ?_
  obtain ⟨hc8, (hbit : s.spriteBitAt r c = true)⟩ := List.mem_filter.1 hc
  rw [drawing_fb_under hn (List.mem_range.1 hr) (List.mem_range.1 hc8), hbit, Bool.xor_true]
  rfl

end Sprite

/-! ## One draw -/

theorem flagByte_eq_one_iff {b : Bool} : flagByte b = 0x01 ↔ b = true := by cases b <;> decide

/-- VF receives the collision flag (R124). -/
theorem complete_drw_reg_flag (x y : RegIdx) (n : RowCount) (s : State) :
    (complete (.drw x y n) s).reg 15 = flagByte (s.drawing x y n.val).collision := by
  rw [complete_reg]; rfl

/-- Every other register is kept (R120). -/
theorem complete_drw_reg_other {q : RegIdx} (x y : RegIdx) (n : RowCount) (s : State) (hq : q ≠ 15) :
    (complete (.drw x y n) s).reg q = s.reg q := by
  simp [complete_reg, regWrite, hq]

/-- Settles O16: `exec_drw` gives the next state, and the lemmas on `State.drawing` its pixels and its flag. -/
theorem drawFlipsThePixelsUnderTheSprite : Obligations.DrawFlipsThePixelsUnderTheSprite := by
  intro x y n s hbounds
  refine ⟨complete (.drw x y n) s, exec_drw x y n hbounds, fun r c hr hc => drawing_fb_under n.isLt hr hc,
    fun j hj => drawing_fb_beside n.isLt hj, fun hlit => ?_, fun hunlit => ?_,
    fun q hq => complete_drw_reg_other x y n s hq, rfl⟩
  · rw [complete_drw_reg_flag, (drawing_collision_iff n.isLt).2 hlit]
    rfl
  · have hnone : (s.drawing x y n.val).collision = false := by
      rw [← Bool.not_eq_true, drawing_collision_iff n.isLt]
      rintro ⟨r, c, hr, hc, hbit, hlit⟩
      simp [hunlit r c hr hc hbit] at hlit
    rw [complete_drw_reg_flag, hnone]
    rfl

/-- Settles O18: the output grows by the events of the draw, and `drawing_events` lists them. -/
theorem drawEmitsOneEventPerSetBit : Obligations.DrawEmitsOneEventPerSetBit := by
  intro x y n s t hbounds h
  rw [exec_drw x y n hbounds] at h
  cases h
  exact congrArg (s.display ++ ·) (drawing_events n.isLt)

/-- Settles O17: the bound of the fault table, and the encoding of the draw. -/
theorem drawOutOfBoundsHalts : Obligations.DrawOutOfBoundsHalts := by
  intro x y n s hn hI
  have hfault : faultOf (.drw x y n) s = some .outOfBoundsAccess := if_pos ⟨hn, hI⟩
  exact exec_of_faultOf_some hfault

/-! ## Two draws -/

/-- After a draw at coordinates other than VF the sprite is where it was. -/
theorem spritePixels_complete_drw {x y : RegIdx} (n : RowCount) (s : State) (hx : x ≠ 15) (hy : y ≠ 15) :
    (complete (.drw x y n) s).spritePixels x y n.val = s.spritePixels x y n.val := by
  rw [State.spritePixels, complete_drw_reg_other x y n s hx, complete_drw_reg_other x y n s hy]
  rfl

/-- Settles O19: the second draw flips what the first flipped, and collides where the first lit a pixel. -/
theorem drawingTwiceRestoresTheFramebuffer : Obligations.DrawingTwiceRestoresTheFramebuffer := by
  intro x y n s t u hx hy hbounds ht hu
  rw [exec_drw x y n hbounds] at ht
  cases ht
  rw [exec_drw (s := complete (.drw x y n) s) x y n hbounds] at hu
  cases hu
  have hflips : ∀ j, (complete (.drw x y n) s).spriteFlips x y n.val j = s.spriteFlips x y n.val j := fun j => by
    rw [State.spriteFlips, spritePixels_complete_drw n s hx hy, State.spriteFlips]
  have hfb : ∀ j, (complete (.drw x y n) s).fb.getLsbD j = (s.fb.getLsbD j ^^ s.spriteFlips x y n.val j) :=
    (drawing_spec s x y n.isLt).1
  constructor
  · refine BitVec.eq_of_getLsbD_eq fun j _ => ?_
    calc ((complete (.drw x y n) s).drawing x y n.val).fb.getLsbD j
      _ = ((s.fb.getLsbD j ^^ s.spriteFlips x y n.val j) ^^ s.spriteFlips x y n.val j) := by
          rw [(drawing_spec _ x y n.isLt).1, hfb, hflips]
      _ = s.fb.getLsbD j := by rw [Bool.xor_assoc, Bool.xor_self, Bool.xor_false]
  · rw [complete_drw_reg_flag, flagByte_eq_one_iff, drawing_collision_iff n.isLt,
      complete_drw_reg_other x y n s hx, complete_drw_reg_other x y n s hy]
    refine exists_congr fun r => exists_congr fun c => and_congr_right fun hr => and_congr_right fun hc =>
      and_congr_right fun (hbit : s.spriteBitAt r c = true) => ?_
    rw [hfb, spriteFlips_spriteIndex n.isLt hr hc, hbit, Bool.xor_true, Bool.not_eq_true']

/-! ## The register load -/

/-- Settles O25: in bounds, `exec_ldVxMemi` and what it writes to each register; else the fault table. -/
theorem loadRegistersFromMemoryInclusive : Obligations.LoadRegistersFromMemoryInclusive := by
  refine fun x s => ⟨fun hI => ?_, fun hI => ?_⟩
  · refine ⟨complete (.ldVxMemi x) s, exec_ldVxMemi x (by omega), fun r hr => ?_, fun r hr => ?_, rfl⟩
    · simp [complete_reg, regWrite, hr]
    · simp [complete_reg, regWrite, not_le.2 hr]
  · have hfault : faultOf (.ldVxMemi x) s = some .outOfBoundsAccess := if_pos hI
    exact exec_of_faultOf_some hfault

end Sys2Proof.Machine
end

section
/-! PROOFS for the remaining statements of the family 'other' about one instruction (40_flow.md 2nnn and 00EE;
41_data.md 8xy0; 43_key_timer.md ExA1 and Fx0A; 44_index_memory.md Fx1E). -/

namespace Sys2Proof.Machine

/-! ## The call and the return -/

/-- Settles O7: the call off the overflow. -/
theorem callPushesItsOwnAddressAndJumps : Obligations.CallPushesItsOwnAddressAndJumps := fun nnn _ h =>
  exec_call nnn h

/-- Settles O8: the count of the fault table, and the encoding of the call. -/
theorem stackOverflowChangesNothingElse : Obligations.StackOverflowChangesNothingElse := by
  intro nnn s hsp
  have hfault : faultOf (.call nnn) s = some .stackOverflow := if_pos hsp
  exact exec_of_faultOf_some hfault

/-- Settles O9: the return pops the slot the call pushed to, in whatever state has that stack and count. -/
theorem callThenReturnComesBack : Obligations.CallThenReturnComesBack := by
  intro nnn s t u v hsp ht hstack hcount hv
  rw [exec_call nnn hsp] at ht
  cases ht
  have hu : u.sp.val = s.sp.val + 1 := congrArg Fin.val hcount
  rw [exec_ret_of_count hsp hu] at hv
  cases hv
  refine ⟨?_, rfl, fun j hj => ?_⟩
  · simp [hstack]
  · simp [hstack, Vector.get_eq_getElem, Vector.getElem_set_ne _ _ (Ne.symm hj)]

/-! ## The register copy -/

theorem exec_ldVxVy (x y : RegIdx) (s : State) :
    exec (.ldVxVy x y) s = .next ((s.setReg x (s.reg y)).advance 2) := rfl

/-- R75: in family 8 only the low nibble 0 is an instruction. -/
theorem decode_family8_unknown {w : Word} (hf : w.extractLsb' 12 4 = 0x8#4) (hn : w.extractLsb' 0 4 ≠ 0x0#4) :
    decode w = .unknown w := by
  have hfamily : fieldF w = 8 := congrArg BitVec.toNat hf
  have hcode : fieldN w ≠ 0 := fun h => hn (BitVec.eq_of_toNat_eq (congrArg Fin.val h))
  simp only [decode, hfamily, decodeFamily8, if_neg hcode]

/-- Settles O14: one register write, which leaves Vy as it was even where it is Vx. -/
theorem copyWritesTheFirstRegister : Obligations.CopyWritesTheFirstRegister := by
  refine ⟨fun x y s => ⟨_, exec_ldVxVy x y s, rfl, ?_⟩, fun w hf hn => decode_family8_unknown hf hn⟩
  rw [State.reg_advance, State.reg_setReg]
  split
  case isTrue hyx => rw [hyx]
  case isFalse => rfl

/-! ## Keys -/

/-- Settles O20: the skip of `exec_sknp`, its distance as `pcAfter` gives it. -/
theorem skipIfKeyNotPressedComparesTheLatch : Obligations.SkipIfKeyNotPressedComparesTheLatch := exec_sknp

/-- Settles O22: with a key the write of its code, without one the wait. -/
theorem waitForKeyTakesAPressedKeyOrRepeats : Obligations.WaitForKeyTakesAPressedKeyOrRepeats :=
  fun _ _ => ⟨fun hkey => if_pos hkey, exec_ldVxK_waiting⟩

/-! ## The address register -/

/-- Settles O24: the register is zero-extended, and `add_eq_ofNat_mod` gives the sum. -/
theorem addToAddressRegisterWraps : Obligations.AddToAddressRegisterWraps := by
  intro x s
  have hext : (regOperand16 s x).toNat = (s.reg x).toNat := BitVec.toNat_setWidth_of_le (by decide)
  have hsum : s.I + regOperand16 s x = BitVec.ofNat 16 ((s.I.toNat + (s.reg x).toNat) % 65536) := by
    rw [add_eq_ofNat_mod, hext]
    rfl
  rw [← hsum]
  rfl

end Sys2Proof.Machine
end

section
/-! PROOFS for the statements of the family 'other' about one step (10_state.md section 5; 20_memory.md sections 2
and 3; 60_exceptions.md section 6; 70_reset_and_hazards.md section 2). -/

namespace Sys2Proof.Machine

/-! ## One cycle and one tick -/

/-- The cycle of a Running machine at a fetchable `pc`. -/
theorem step_of_fetchable {s : State} {k : KeySample} (hr : s.run = .running) (hi : s.takeInput.1 = .cycle k)
    (hk : k ≠ .quit) (hf : s.fetchable) :
    step s = .next (afterExec (decode s.wordAtPc) (s.takeInput.2.refreshKey k)) := by
  rw [step_of_cycle hr hi hk, fetchDecodeExecute_of_fetchable (by simpa using hf), exec_eq]
  simp

/-- `step_cases` with the next state of the instruction written out. -/
theorem step_next_cases {s t : State} (h : step s = .next t) :
    (s.takeInput.1 = .tick ∧ t = s.takeInput.2.tick) ∨
    (s.takeInput.1 = .cycle .quit ∧ t = s.takeInput.2.halt .quit 0) ∨
    ∃ k, s.takeInput.1 = .cycle k ∧ k ≠ .quit ∧
      ((0x0FFE < s.pc.toNat ∧ t = (s.takeInput.2.refreshKey k).halt .outOfBoundsAccess 0) ∨
       (s.pc.toNat ≤ 0x0FFE ∧ s.pc.toNat % 2 = 1 ∧ t = (s.takeInput.2.refreshKey k).halt .misalignedFetch 0) ∨
       (s.fetchable ∧ t = afterExec (decode s.wordAtPc) (s.takeInput.2.refreshKey k))) := by
  obtain ⟨-, htick | hquit | ⟨k, hi, hk, hend | hodd | ⟨hf, hexec⟩⟩⟩ := step_cases h
  · exact .inl htick
  · exact .inr (.inl hquit)
  · exact .inr (.inr ⟨k, hi, hk, .inl hend⟩)
  · exact .inr (.inr ⟨k, hi, hk, .inr (.inl hodd)⟩)
  · exact .inr (.inr ⟨k, hi, hk, .inr (.inr ⟨hf, eq_afterExec hexec⟩)⟩)

/-- Settles O35: the bytes at `pc` are the fetched word, and each key sample refreshes the latch as it says. -/
theorem stepRunsTheDecodedInstruction : Obligations.StepRunsTheDecodedInstruction := by
  intro s i hr hle heven hbytes
  have hdec : decode s.wordAtPc = i := by
    simp only [decodeBytes, Except.ok.injEq, Prod.mk.injEq, and_true] at hbytes
    exact hbytes
  have hstep : ∀ k, k ≠ .quit → s.takeInput.1 = .cycle k → step s = exec i (s.takeInput.2.refreshKey k) :=
    fun k hk hi => by rw [step_of_fetchable hr hi hk ⟨hle, heven⟩, hdec, exec_eq]
  exact ⟨hstep .noKey (by decide), fun c => hstep (.key c) nofun⟩

/-- Settles O36: the two faults of the fetch, after the key refresh. -/
theorem unfetchablePcHalts : Obligations.UnfetchablePcHalts := by
  intro s k hr hi hk
  rw [step_of_cycle hr hi hk, fetchDecodeExecute]
  refine ⟨fun hend => ?_, fun hle hodd => ?_⟩
  · rw [State.fetch_past_end (by simpa using hend)]
    rfl
  · rw [State.fetch_odd (by simpa using hle) (by simpa using hodd)]
    rfl

theorem countDown_eq_ofNat (t : Byte) : countDown t = BitVec.ofNat 8 (t.toNat - 1) := by
  rw [← countDown_toNat, BitVec.ofNat_toNat, BitVec.setWidth_eq]

/-- Settles O38: a tick counts both timers down by `countDown`. -/
theorem tickCountsTheTimersDown : Obligations.TickCountsTheTimersDown := by
  intro s hr hi
  rw [step_of_tick hr hi, ← countDown_eq_ofNat, ← countDown_eq_ofNat, State.tick, State.takeInput_DT,
    State.takeInput_ST]

/-! ## Running and Halted -/

/-- An instruction of a Running machine enters Halted exactly on its fault. -/
theorem afterExec_run_iff {i : Instr} {s : State} (hr : s.run = .running) :
    (afterExec i s).run = .halted ↔ faultOf i s ≠ none := by
  cases hfault : faultOf i s with
  | some c => simp [afterExec_of_fault hfault]
  | none =>
    obtain ⟨t, ht, hdone⟩ := exec_of_faultOf_none hfault
    obtain rfl := eq_afterExec ht
    simp [hdone.run, hr]

/-- A cycle that does not quit halts where it cannot fetch and where the instruction faults. -/
theorem cycle_halts_iff {s : State} {k : KeySample} (hr : s.run = .running) (hi : s.takeInput.1 = .cycle k)
    (hk : k ≠ .quit) :
    ∃ t, step s = .next t ∧ (t.run = .halted ↔ ¬s.fetchable ∨ faultOf (decode s.wordAtPc) s ≠ none) := by
  by_cases hf : s.fetchable
  · have hfault : faultOf (decode s.wordAtPc) (s.takeInput.2.refreshKey k) = faultOf (decode s.wordAtPc) s :=
      faultOf_congr _ (by simp) (by simp)
    refine ⟨_, step_of_fetchable hr hi hk hf, ?_⟩
    rw [afterExec_run_iff (by simpa using hr), hfault]
    simp [hf]
  · obtain ⟨c, -, hstep⟩ := fetchDecodeExecute_of_not_fetchable (s := s.takeInput.2.refreshKey k) (by simpa using hf)
    exact ⟨_, (step_of_cycle hr hi hk).trans hstep, by simp [hf]⟩

/-- Settles O39: the next state of a Running machine by its input. -/
theorem runningToHaltedIsTheOnlyTransition : Obligations.RunningToHaltedIsTheOnlyTransition := by
  refine ⟨rfl, fun s => step_halted, fun s hr => ?_, fun m => rfl⟩
  unfold State.stepHalts
  split
  case h_1 hi => exact ⟨_, step_of_tick hr hi, by simp [hr]⟩
  case h_2 hi => exact ⟨_, step_of_quit hr hi, by simp⟩
  case h_3 k hk hi => exact cycle_halts_iff hr hi hk

/-! ## Memory -/

/-- R57: no step writes memory. -/
theorem step_mem {s t : State} (h : step s = .next t) : t.mem = s.mem := by
  obtain ⟨-, rfl⟩ | ⟨-, rfl⟩ | ⟨k, -, -, ⟨-, rfl⟩ | ⟨-, -, rfl⟩ | ⟨-, rfl⟩⟩ := step_next_cases h <;> simp

/-- Settles O41, by `step_mem`. -/
theorem noStepWritesMemory : Obligations.NoStepWritesMemory := fun _ _ h =>
  ⟨step_mem h, fun a => congrArg (·.read a) (step_mem h)⟩

/-! ## The delay timer -/

/-- An instruction that changes DT is a Fx15, and loads it (R30). -/
theorem afterExec_DT_changed {i : Instr} {s : State} (h : (afterExec i s).DT ≠ s.DT) :
    ∃ x, i = .ldDtVx x ∧ (afterExec i s).DT = s.reg x := by
  by_cases hld : ∃ x, i = .ldDtVx x
  · obtain ⟨x, rfl⟩ := hld
    exact ⟨x, rfl, rfl⟩
  · exact absurd (afterExec_DT (not_exists.1 hld)) h

/-- Settles O42: of the six ways a step can go only the tick and the instruction touch DT. -/
theorem delayTimerChangesByTickOrLoadOnly : Obligations.DelayTimerChangesByTickOrLoadOnly := by
  intro s t h hchanged
  obtain ⟨hi, rfl⟩ | ⟨-, rfl⟩ | ⟨k, -, -, ⟨-, rfl⟩ | ⟨-, -, rfl⟩ | ⟨hf, rfl⟩⟩ := step_next_cases h
  case inl =>
    rw [State.tick_DT, State.takeInput_DT] at hchanged ⊢
    have hcount := countDown_toNat s.DT
    have hne : (countDown s.DT).toNat ≠ s.DT.toNat := fun e => hchanged (BitVec.eq_of_toNat_eq e)
    exact .inl ⟨hi, by omega⟩
  case inr.inr.inr.inr =>
    obtain ⟨x, hx, hDT⟩ := afterExec_DT_changed (s := s.takeInput.2.refreshKey k) (by simpa using hchanged)
    exact .inr ⟨hf, x, hx, by simpa [State.reg] using hDT⟩
  all_goals exact absurd (by simp) hchanged

/-! ## The key latch -/

/-- With no key pressed an instruction shows the kept key code nowhere else (R33). -/
theorem complete_withKeyCode (i : Instr) {s : State} (c : KeyCode) (hkey : s.keyPressed = false) :
    complete i { s with keyCode := c } = { complete i s with keyCode := c } := by
  have hreg : regsAfter i { s with keyCode := c } = regsAfter i s := regsAfter_congr rfl fun q => by
    cases i with
    | ldVxK x => simp [regWrite, hkey]
    | _ => rfl
  have hspecial : specialsAfter i { s with keyCode := c } = { specialsAfter i s with keyCode := c } := by
    cases i <;> rfl
  have hpc : pcAfter i { s with keyCode := c } = pcAfter i s := by
    cases i with
    | sknp x => simp [pcAfter, hkey]
    | _ => rfl
  simp only [complete, hreg, hspecial, hpc]

theorem afterExec_withKeyCode (i : Instr) {s : State} (c : KeyCode) (hkey : s.keyPressed = false) :
    afterExec i { s with keyCode := c } = { afterExec i s with keyCode := c } :=
  afterExec_rel (fun t' t => t' = { t with keyCode := c }) rfl rfl (fun _ _ => rfl) (complete_withKeyCode i c hkey)

/-- Neither do fetch, decode and execute. -/
theorem fetchDecodeExecute_withKeyCode {s t : State} (c : KeyCode) (hkey : s.keyPressed = false)
    (h : fetchDecodeExecute s = .next t) :
    fetchDecodeExecute { s with keyCode := c } = .next { t with keyCode := c } := by
  have hfetch : ({ s with keyCode := c } : State).fetch = s.fetch := rfl
  rw [fetchDecodeExecute] at h ⊢
  rw [hfetch]
  cases hw : s.fetch with
  | error fault =>
    rw [hw] at h
    cases h
    rfl
  | ok w =>
    rw [hw] at h
    obtain rfl := eq_afterExec h
    exact (exec_eq _ _).trans (congrArg _ (afterExec_withKeyCode _ c hkey))

section Latch
variable (s : State) (c : KeyCode) (p : Bool)

theorem takeInput_withLatch :
    ({ s with keyCode := c, keyPressed := p } : State).takeInput =
      (s.takeInput.1, { s.takeInput.2 with keyCode := c, keyPressed := p }) := by
  unfold State.takeInput
  cases s.pending <;> rfl

/-- A key in the cycle overwrites the whole latch. -/
theorem step_withLatch_of_key {a : KeyCode} (hr : s.run = .running) (hi : s.takeInput.1 = .cycle (.key a)) :
    step { s with keyCode := c, keyPressed := p } = step s := by
  have hi' : ({ s with keyCode := c, keyPressed := p } : State).takeInput.1 = .cycle (.key a) := by
    rw [takeInput_withLatch, hi]
  rw [step_of_cycle hr hi nofun, step_of_cycle (s := { s with keyCode := c, keyPressed := p }) hr hi' nofun,
    takeInput_withLatch]
  rfl

/-- A cycle without a key clears the pressed flag and keeps the code. -/
theorem step_withLatch_of_noKey {t : State} (hr : s.run = .running) (hi : s.takeInput.1 = .cycle .noKey)
    (h : step s = .next t) : step { s with keyCode := c, keyPressed := p } = .next { t with keyCode := c } := by
  have hi' : ({ s with keyCode := c, keyPressed := p } : State).takeInput.1 = .cycle .noKey := by
    rw [takeInput_withLatch, hi]
  rw [step_of_cycle hr hi nofun] at h
  rw [step_of_cycle (s := { s with keyCode := c, keyPressed := p }) hr hi' nofun, takeInput_withLatch]
  exact fetchDecodeExecute_withKeyCode c rfl h

end Latch

/-- Settles O43: by the key sample of the cycle. -/
theorem keyLatchIsAnInputOfItsCycle : Obligations.KeyLatchIsAnInputOfItsCycle := by
  intro s t t' k c p hi hk h h'
  have hr : s.run = .running := (step_cases h).1
  cases k with
  | quit => exact absurd rfl hk
  | key a =>
    rw [step_withLatch_of_key s c p hr hi, h] at h'
    cases h'
    exact ⟨rfl, fun _ => rfl⟩
  | noKey =>
    rw [step_withLatch_of_noKey s c p hr hi h] at h'
    cases h'
    exact ⟨rfl, fun hne => absurd rfl hne⟩

/-! ## A placed word -/

/-- The number of a word, cut to the 16 bits of a word (log entry 4). -/
theorem tableWord_sixteen (w : Nat) : tableWord 16 w = BitVec.ofNat 16 w :=
  BitVec.eq_of_toNat_eq (by simp [tableWord])

/-- Where `pc` leaves room, the word's two bytes are written there and the next input is a cycle with no key. -/
theorem placeWord_eq {s : State} (w : Word) (h : s.pc.toNat ≤ 0x0FFE) :
    s.placeWord w = { s with
      mem := s.mem.writeFrom s.pc.toNat (bytesOfWord w), pending := .cycle .noKey :: s.pending } := by
  have hroom : inBounds s.pc.toNat (bytesOfWord w).length = true := by
    have hle : s.pc.toNat + 2 ≤ 4096 := by omega
    simp [inBounds, bytesOfWord, hle]
  rw [State.placeWord, memWrite, if_pos hroom]
  rfl

/-- The next fetch reads the word that was placed. -/
theorem wordAtPc_placeWord {s : State} (w : Word) (h : s.pc.toNat ≤ 0x0FFE) (hwf : s.mem.wf = true) :
    (s.placeWord w).wordAtPc = w := by
  have hroom : s.pc.toNat + (bytesOfWord w).length ≤ Config.memSize := by
    simp only [bytesOfWord, List.length_cons, List.length_nil, Config.memSize]
    omega
  rw [placeWord_eq w h]
  simp only [State.wordAtPc, Memory.read_writeFrom hwf hroom]
  simp only [bytesOfWord, List.length_cons, List.length_nil]
  simpa using wordOfBytes_bytesOfWord w

/-- Settles O44: the placed input is a cycle with no key, and the fetch reads the placed word. -/
theorem placedWordRunsNext : Obligations.PlacedWordRunsNext := by
  intro s w hr hle heven hwf
  have hplaced := placeWord_eq (BitVec.ofNat 16 w) hle
  have hword := wordAtPc_placeWord (BitVec.ofNat 16 w) hle hwf
  rw [State.withFetchWord, tableWord_sixteen]
  have hi : (s.placeWord (BitVec.ofNat 16 w)).takeInput =
      (.cycle .noKey, { s.placeWord (BitVec.ofNat 16 w) with pending := s.pending }) := by
    rw [hplaced]; rfl
  have hf : (s.placeWord (BitVec.ofNat 16 w)).fetchable := by
    rw [hplaced]; exact ⟨hle, heven⟩
  rw [step_of_fetchable (by rw [hplaced]; exact hr) (congrArg Prod.fst hi) nofun hf, hword, hi, exec_eq]
  rfl

end Sys2Proof.Machine
end

section
/-! PROOFS for the statements of the family 'other' about reset, the Loader and the host (10_state.md section 10;
60_exceptions.md section 7; 70_reset_and_hazards.md section 1). -/

namespace Sys2Proof.Machine

/-! ## Reset -/

/-- Settles O46: the registers by `State.reg_reset`, every other item as the reset state holds it. -/
theorem resetLeavesTheStateOfTheTable : Obligations.ResetLeavesTheStateOfTheTable := by
  refine fun m => ⟨State.reg_reset, fun j => ?_, fun j => BitVec.getLsbD_zero, rfl, rfl, rfl, rfl, rfl, rfl, rfl, rfl,
    rfl, rfl, rfl⟩
  simp [State.resetWith, State.reset, Vector.get_eq_getElem]

/-! ## The Loader and the launch -/

theorem load_empty (s : State) : s.load (some []) = .error .empty := rfl

theorem load_oversized (s : State) {b : List Byte} (h : 3584 < b.length) : s.load (some b) = .error .oversized := by
  rw [State.load, if_neg (by omega), if_pos h]

theorem load_ok (s : State) {b : List Byte} (h1 : 1 ≤ b.length) (h2 : b.length ≤ 3584) :
    s.load (some b) = .ok { s with mem := s.mem.writeFrom Config.origin b } := by
  rw [State.load, if_neg (by omega), if_neg (by simp only [Config.maxImage]; omega)]

section Image
variable {m : Memory} {b : List Byte}

/-- The image ends inside memory (R192). -/
theorem origin_add_length_le (h : b.length ≤ 3584) : Config.origin + b.length ≤ Config.memSize := by
  simp only [Config.origin, Config.memSize]
  omega

theorem read_writeFrom_inside (hwf : m.wf = true) (hb : b.length ≤ 3584) {a : Nat}
    (ha : 0x200 ≤ a ∧ a < 0x200 + b.length) : (m.writeFrom Config.origin b).read a = b[a - 0x200]'(by omega) := by
  rw [Memory.read_writeFrom hwf (origin_add_length_le hb), dif_pos ha]

theorem read_writeFrom_outside (hwf : m.wf = true) (hb : b.length ≤ 3584) {a : Nat}
    (ha : a < 0x200 ∨ 0x200 + b.length ≤ a) : (m.writeFrom Config.origin b).read a = m.read a := by
  rw [Memory.read_writeFrom hwf (origin_add_length_le hb), dif_neg (by simp only [Config.origin]; omega)]

end Image

/-- Settles O47: the failures by the length, and the image by a read after a run of writes. -/
theorem loaderCopiesTheImageTo0x200 : Obligations.LoaderCopiesTheImageTo0x200 := by
  refine ⟨fun s => rfl, load_empty, fun s b h => load_oversized s h, fun s b hwf h1 h2 => ?_⟩
  refine ⟨_, load_ok s h1 h2, fun i hi => ?_, fun a ha => read_writeFrom_outside hwf h2 ha, rfl⟩
  simpa using read_writeFrom_inside hwf h2 (a := 0x200 + i) ⟨by omega, by omega⟩

/-- A launch loads over the reset state, or fails as the Loader fails (R193). -/
theorem launch_of_length {m : Memory} {b : List Byte} (h1 : 1 ≤ b.length) (h2 : b.length ≤ 3584) :
    launch m b = some { State.reset with mem := m.writeFrom Config.origin b } := by
  rw [launch, load_ok _ h1 h2]
  rfl

theorem launch_eq_none_iff {m : Memory} {b : List Byte} : launch m b = none ↔ b.length = 0 ∨ 3584 < b.length := by
  by_cases hempty : b.length = 0
  · obtain rfl := List.length_eq_zero_iff.1 hempty
    simp [launch, load_empty]
  by_cases hover : 3584 < b.length
  · simp [launch, load_oversized _ hover, hover]
  · rw [launch_of_length (by omega) (by omega)]
    simp only [reduceCtorEq, false_iff]
    omega

/-- Settles O48: what a launch answers, its contents as for the Loader, the canonical form by `Memory.wf_writeFrom`. -/
theorem launchIsResetWithTheImage : Obligations.LaunchIsResetWithTheImage := by
  refine ⟨fun m b => launch_eq_none_iff, fun m b t hwf h => ?_⟩
  have hlen : ¬(b.length = 0 ∨ 3584 < b.length) := fun hnone => by simp [launch_eq_none_iff.2 hnone] at h
  have hle : b.length ≤ 3584 := by omega
  rw [launch_of_length (by omega) hle] at h
  cases h
  exact ⟨Memory.wf_writeFrom hwf (origin_add_length_le hle), rfl, fun a ha => read_writeFrom_inside hwf hle ha,
    fun a ha => read_writeFrom_outside hwf hle ha⟩

/-! ## The snapshot and the key table -/

/-- Settles O49: the snapshot is `State.dump`, its live entries as `State.getElem?_liveStack` gives them. -/
theorem snapshotShowsTheHaltedState : Obligations.SnapshotShowsTheHaltedState := by
  refine ⟨fun s hr => ⟨State.snapshot_running hr, State.exitSuccess_running hr⟩, fun s hh => ?_⟩
  exact ⟨s.dump, State.snapshot_halted hh, rfl, rfl, rfl, rfl, rfl, rfl, rfl, rfl, rfl, rfl, rfl, rfl, rfl,
    State.length_liveStack s, fun j _ hj => State.getElem?_liveStack hj, State.exitSuccess_halted hh⟩

/-- The key symbols of R181. -/
def keySymbols : List Char :=
  ['0', '1', '2', '3', '4', '5', '6', '7', '8', '9', 'a', 'b', 'c', 'd', 'e', 'f', 'q']

/-- A symbol outside the table is no key (D19). -/
theorem keyOfSymbol_of_not_mem {c : Char} (h : c ∉ keySymbols) : keyOfSymbol c = .noKey := by
  simp only [keySymbols, List.mem_cons, List.not_mem_nil, or_false, not_or] at h
  simp only [keyOfSymbol, h, if_false]

/-- The table holds the digits, a to f, and q. -/
theorem keySymbols_ranges :
    ∀ c ∈ keySymbols, (48 ≤ c.toNat ∧ c.toNat ≤ 57) ∨ (97 ≤ c.toNat ∧ c.toNat ≤ 102) ∨ c = 'q' := by
  simp [keySymbols]

/-- Settles O50: the symbols of the table one by one, every other symbol by `keyOfSymbol_of_not_mem`. -/
theorem keyTableMapsItsSymbolsOnly : Obligations.KeyTableMapsItsSymbolsOnly := by
  refine ⟨by decide, by decide, by decide, fun c hdigit hletter hq => keyOfSymbol_of_not_mem fun hmem => ?_⟩
  obtain h | h | h := keySymbols_ranges c hmem
  · exact hdigit h
  · exact hletter h
  · exact hq h

end Sys2Proof.Machine
end

section
/-! PROOFS for the invariant statements of the family 'other' (10_state.md sections 4 to 6 and 10; 60_exceptions.md
sections 1 and 3): every update a step is made of keeps the invariant, and a fault makes a true halt record. -/

namespace Sys2Proof.Machine

open Sys2Proof.Laws

/-! ## The halt record -/

theorem haltRecordTrue_running {s : State} (hr : s.run = .running) :
    s.haltRecordTrue ↔ s.haltCause = .none ∧ s.haltOpcode = 0#16 := by
  simp only [State.haltRecordTrue, hr]

/-- A word that decodes to an instruction of a row of R76 matches the row. -/
theorem and_mask_of_decode {w m p : Word} {i : Instr} (hd : decode w = i) (hrow : rowOf i = some ⟨m, p⟩) :
    w &&& m = p := by
  subst hd
  exact beq_iff_eq.1 (covers_of_rowOf_decode hrow).2

/-- R72: the row count of a fetched draw stands in its low nibble. -/
theorem and_000F_of_decode_drw {w : Word} {x y : RegIdx} {n : RowCount} (hd : decode w = .drw x y n) :
    (w &&& 0x000F#16).toNat = n.val := by
  have hw : w = formatRRN 0xD#4 x y n := (encode_decode w).symm.trans (congrArg encode hd)
  rw [and_000F, hw, fieldN_formatRRN]

/-- R72: the register of a fetched register load stands in bits 11 to 8. -/
theorem shift_and_000F_of_decode_ldVxMemi {w : Word} {x : RegIdx} (hd : decode w = .ldVxMemi x) :
    ((w >>> 8) &&& 0x000F#16).toNat = x.val := by
  have hw : w = formatRI 0xF#4 x 0x65#8 := (encode_decode w).symm.trans (congrArg encode hd)
  have hx : (fieldX w).val = x.val := by rw [hw, fieldX_formatRI]
  rw [and_000F, fieldN_val, ← hx, fieldX_val, BitVec.toNat_ushiftRight, Nat.shiftRight_eq_div_pow]

/-- The fault of a fetched instruction is recorded with the word that `pc` still addresses (R160 to R164, R170). -/
theorem haltRecordTrue_of_fault {s : State} {c : HaltCause} (hf : s.fetchable)
    (hfault : faultOf (decode s.wordAtPc) s = some c) : (s.halt c s.wordAtPc).haltRecordTrue := by
  cases hd : decode s.wordAtPc <;> rw [hd] at hfault <;>
    simp only [faultOf, Option.ite_none_right_eq_some, Option.some.injEq, reduceCtorEq] at hfault
  case ret =>
    obtain ⟨hsp, rfl⟩ := hfault
    have hw : s.wordAtPc = 0x00EE#16 := (encode_decode s.wordAtPc).symm.trans (congrArg encode hd)
    exact ⟨hf, rfl, hw, hsp⟩
  case call nnn =>
    obtain ⟨hsp, rfl⟩ := hfault
    exact ⟨hf, rfl, and_mask_of_decode hd rfl, hsp⟩
  case drw x y n =>
    obtain ⟨⟨hn, hI⟩, rfl⟩ := hfault
    have hcount := and_000F_of_decode_drw hd
    exact .inr ⟨hf, rfl, .inl ⟨and_mask_of_decode hd rfl, hcount ▸ hn, by simp only [State.halt, hcount]; omega⟩⟩
  case ldVxMemi x =>
    obtain ⟨hI, rfl⟩ := hfault
    have hreg := shift_and_000F_of_decode_ldVxMemi hd
    exact .inr ⟨hf, rfl, .inr ⟨and_mask_of_decode hd rfl, by simp only [State.halt, hreg]; omega⟩⟩
  case unknown w =>
    subst hfault
    have hw : s.wordAtPc = w := (encode_decode s.wordAtPc).symm.trans (congrArg encode hd)
    exact ⟨hf, rfl, not_isInstructionWord_iff.2 (hd.trans (congrArg Instr.unknown hw.symm))⟩

/-! ## The program counter and the stack -/

/-- R28: from a fetchable address neither a step in sequence nor a skip passes 0x1002. -/
theorem add_toNat_le {v k : Word} (hv : v.toNat ≤ 0x0FFE) (hk : k.toNat ≤ 4) : (v + k).toNat ≤ 0x1002 := by
  rw [BitVec.toNat_add]
  omega

/-- R28: a completed instruction leaves `pc` at most 0x1002. -/
theorem pcAfter_toNat_le (i : Instr) {s : State} (hf : s.fetchable) (hstack : ∀ j : Fin 15, slotFetchable (s.stack.get j)) :
    (pcAfter i s).toNat ≤ 0x1002 := by
  have hpc : s.pc.toNat ≤ 0x1002 := hf.1.trans (by decide)
  have hnext : (s.pc + 2).toNat ≤ 0x1002 := add_toNat_le hf.1 (by decide)
  have hskip : (s.pc + 4).toNat ≤ 0x1002 := add_toNat_le hf.1 (by decide)
  cases i with
  | ret =>
    simp only [pcAfter]
    split
    case isTrue hsp =>
      have hlt := s.sp.isLt
      exact add_toNat_le (hstack ⟨s.sp.val - 1, by omega⟩).1 (by decide)
    case isFalse => exact hpc
  | jp nnn | call nnn => exact (addrOperand_toNat_le nnn).trans (by decide)
  | se x kk | sne x kk | sknp x | ldVxK x =>
    simp only [pcAfter]
    split <;> assumption
  | unknown w => exact hpc
  | _ => exact hnext

/-- R28, R102: the one write to the stack pushes a fetched address. -/
theorem complete_stack_fetchable (i : Instr) {s : State} (hf : s.fetchable)
    (hstack : ∀ j : Fin 15, slotFetchable (s.stack.get j)) (j : Fin 15) :
    slotFetchable ((complete i s).stack.get j) := by
  cases i with
  | call nnn =>
    have hslot : (complete (.call nnn) s).stack.get j = if s.sp.val = j.val then s.pc else s.stack.get j := by
      simp [complete, specialsAfter, Vector.get_eq_getElem, Vector.getElem_setIfInBounds]
    rw [hslot]
    split
    · exact hf
    · exact hstack j
  | _ => exact hstack j

/-! ## The invariant through the parts of a step -/

namespace State.Inv
variable {s : State}

theorem takeInput (h : s.Inv) : s.takeInput.2.Inv := by
  obtain ⟨hmem, hpc, hstack, hST, hrecord⟩ := h
  rw [State.takeInput_eq]
  exact ⟨hmem, hpc, hstack, hST, hrecord⟩

theorem refreshKey (h : s.Inv) (k : KeySample) : (s.refreshKey k).Inv := by
  obtain ⟨hmem, hpc, hstack, hST, hrecord⟩ := h
  cases k <;> exact ⟨hmem, hpc, hstack, hST, hrecord⟩

/-- D12: the sound timer stays at 0. -/
theorem tick (h : s.Inv) : s.tick.Inv := by
  obtain ⟨hmem, hpc, hstack, hST, hrecord⟩ := h
  exact ⟨hmem, hpc, hstack, by rw [State.tick_ST, hST]; rfl, hrecord⟩

/-- A halt writes the halt record only. -/
theorem halt {c : HaltCause} {w : Word} (h : s.Inv) (hrecord : (s.halt c w).haltRecordTrue) : (s.halt c w).Inv :=
  ⟨h.mem_wf, h.pc_le, h.stack_fetchable, h.st_zero, hrecord⟩

/-- The fetched instruction, whether it faults or completes. -/
theorem afterExec (h : s.Inv) (hr : s.run = .running) (hf : s.fetchable) :
    (afterExec (decode s.wordAtPc) s).Inv := by
  cases hfault : faultOf (decode s.wordAtPc) s with
  | some c =>
    rw [afterExec_of_fault hfault, encode_decode]
    exact h.halt (haltRecordTrue_of_fault hf hfault)
  | none =>
    obtain ⟨t, ht, hdone⟩ := exec_of_faultOf_none hfault
    obtain rfl := eq_afterExec ht
    have hrecord := (haltRecordTrue_running hr).1 h.halt_record
    refine ⟨?_, ?_, fun j => ?_, ?_, ?_⟩
    · rw [afterExec_mem]; exact h.mem_wf
    · rw [hdone.pc]; exact pcAfter_toNat_le _ hf h.stack_fetchable
    · rw [afterExec_of_no_fault hfault]; exact complete_stack_fetchable _ hf h.stack_fetchable j
    · rw [afterExec_ST]; exact h.st_zero
    · rw [haltRecordTrue_running (hdone.run.trans hr), hdone.haltCause, hdone.haltOpcode]; exact hrecord

end State.Inv

/-! ## The invariant at reset and through a step -/

theorem State.inv_resetWith {m : Memory} (hwf : m.wf = true) : (State.resetWith m).Inv where
  mem_wf := hwf
  pc_le := (by decide : (0x0200#16).toNat ≤ 0x1002)
  stack_fetchable j := by simp [State.resetWith, State.reset, Vector.get_eq_getElem, slotFetchable]
  st_zero := rfl
  halt_record := ⟨rfl, rfl⟩

/-- Settles O51: `State.reset` is the reset over the empty memory. -/
theorem resetMeetsTheInvariant : Obligations.ResetMeetsTheInvariant :=
  ⟨State.inv_resetWith Memory.wf_nil, fun _ hwf => State.inv_resetWith hwf⟩

/-- Settles O52: each of the ways a step can go keeps the invariant. -/
theorem everyStepKeepsTheInvariant : Obligations.EveryStepKeepsTheInvariant := by
  intro s t hinv h
  have hr : s.run = .running := (step_cases h).1
  have hrefreshed : ∀ k, (s.takeInput.2.refreshKey k).Inv := hinv.takeInput.refreshKey
  obtain ⟨-, rfl⟩ | ⟨-, rfl⟩ | ⟨k, -, -, ⟨hend, rfl⟩ | ⟨hle, hodd, rfl⟩ | ⟨hf, rfl⟩⟩ := step_next_cases h
  case inl => exact hinv.takeInput.tick
  case inr.inl => exact hinv.takeInput.halt rfl
  case inr.inr.inl => exact (hrefreshed k).halt (.inl ⟨by simpa using hend, rfl⟩)
  case inr.inr.inr.inl => exact (hrefreshed k).halt ⟨by simpa using hle, by simpa using hodd, rfl⟩
  case inr.inr.inr.inr =>
    have hword : (s.takeInput.2.refreshKey k).wordAtPc = s.wordAtPc := by simp
    exact hword ▸ (hrefreshed k).afterExec (by simpa using hr) (by simpa using hf)

end Sys2Proof.Machine
end
